-- ==== Sys2Proof/Word.lean ====
section
/-! DEFINITION. The machine's word types (00_scope.md R5, R7, R8). -/

namespace Sys2Proof

/-- A 32-bit pattern: the contents of a register, read as signed (`toInt`), or a memory word, read as unsigned
(`toNat`). One pattern, two readings (R8, D7; log 7). -/
abbrev Word := BitVec 32

/-- A word address, 0..65535 (R5, R40). Addresses wrap modulo 65536 (R44). -/
abbrev Addr := BitVec 16

/-- A byte of the program image file, and a quarter of a memory word (log 8). -/
abbrev Byte := BitVec 8

end Sys2Proof
end

