-- ==== Sys2Proof/Config.lean ====
section
/-! DEFINITION. What the spec fixes as a size and what it leaves open as a free value (00_scope.md R5, R6). The other open
parameter of R6, `PC_STORE_MASKED`, is plain data of the state (`State.pcStoreMasked`; log 2), so that every claim over all
states covers both its values. -/

namespace Sys2Proof

/-- The two shift operations, the first argument of `SHIFT_OOR` (R135). -/
inductive ShiftOp where
  /-- LSL, shift left (R133). -/
  | lsl
  /-- LSR, arithmetic shift right (R134). -/
  | lsr
  deriving DecidableEq, Repr

namespace Config

/-- `MEMWORDS`, the number of memory words (table R5). -/
def memWords : Nat := 65536

/-- `SHIFT_OOR(op, value, amount)` of R6 and R135: what LSL and LSR write when the amount is outside 0..31. A FREE VALUE
(log 5): the spec says it is a function of these three alone and gives no value, so it has no body here and a claim
holds for every choice of it. -/
opaque shiftOor : ShiftOp → Word → Word → Word

/-- `endlessInput source position`: the value number `position` of an infinite console input, one such input for each
`source` (R32, R205). FREE VALUES (log 19): the environment chooses every value INP receives (R209), so nothing is known of
them here and a claim holds for every choice. -/
opaque endlessInput : Nat → Nat → Word

end Config

end Sys2Proof
end

