-- ==== Sys2Proof/Syntax.lean ====
section
/-! DEFINITION. The instructions as syntax: the seven fields of an instruction word (30_encoding.md table R60), the operand
forms, and `Instr`, one constructor for each row of `opcode_table.json`. -/

namespace Sys2Proof

/-- The seven fields that the decoder extracts from every word, whether or not the opcode uses them (R60, R62). -/
structure Fields where
  /-- Destination-bank select. -/
  flg0 : Bool := false
  /-- Source-bank select. -/
  flg1 : Bool := false
  /-- LDR and STR addressing mode. -/
  flg2 : Bool := false
  /-- Operation selector. -/
  opcode : BitVec 5
  /-- Destination or primary register index. -/
  rn : BitVec 4 := 0
  /-- Source or secondary register index. -/
  rm : BitVec 4 := 0
  /-- Immediate value, memory address or branch target. -/
  location : BitVec 16 := 0
  deriving DecidableEq, Repr

/-- The two register banks (10_state.md R21, R22). -/
inductive Bank where
  /-- `general[0..15]`. -/
  | general
  /-- `system[0..15]`; `system[0]` is the program counter. -/
  | system
  deriving DecidableEq, Repr

/-- A register operand: a bank and an index 0..15 (R64, R82). -/
structure Reg where
  /-- The bank the instruction's flag selects. -/
  bank : Bank
  /-- The index in the bank. -/
  index : Fin 16
  deriving DecidableEq, Repr

/-- The program counter is `system[0]`, the same storage (R24). -/
def Reg.pc : Reg := ⟨.system, 0⟩

/-- The addressing mode of LDR and STR, chosen by flg2 (R100). -/
inductive AddrMode where
  /-- flg2 = 0: the address is the location field; flg1 and Rm are not looked at. -/
  | direct (location : BitVec 16)
  /-- flg2 = 1: the address is the low 16 bits of `src[Rm]`; the location field is not looked at. -/
  | indirect (src : Reg)
  deriving DecidableEq, Repr

/-- The instructions, one constructor for each row of `opcode_table.json`, in the table's order. A constructor carries the
fields its instruction uses (table R66; the others are ignored, log 14). `dst` is the Rn operand and `src` the Rm operand
with their banks resolved (R82). An unassigned opcode carries its whole word, the payload of its diagnostic (R177). -/
inductive Instr where
  /-- HLT, opcode 0: halt (R84). -/
  | hlt
  /-- Opcode 1, unassigned: an unrecognized instruction (R85). -/
  | unassigned01 (w : Word)
  /-- LDR, opcode 2: load register (R101). -/
  | ldr (dst : Reg) (ea : AddrMode)
  /-- STR, opcode 3: store register: `dst` is the register stored (R102). -/
  | str (dst : Reg) (ea : AddrMode)
  /-- INP, opcode 4: input (R112). -/
  | inp (dst : Reg)
  /-- OUT, opcode 5: output: `dst` is the register emitted (R113). -/
  | out (dst : Reg)
  /-- CPR, opcode 6: copy register (R120). -/
  | cpr (dst src : Reg)
  /-- CPV, opcode 7: copy value (R121). -/
  | cpv (dst : Reg) (location : BitVec 16)
  /-- ADD, opcode 8: add (R131). -/
  | add (dst src : Reg)
  /-- SUB, opcode 9: subtract (R132). -/
  | sub (dst src : Reg)
  /-- LSL, opcode 10: shift left (R133). -/
  | lsl (dst src : Reg)
  /-- LSR, opcode 11: shift right, arithmetic (R134). -/
  | lsr (dst src : Reg)
  /-- AND, opcode 12: bitwise and (R145). -/
  | and (dst src : Reg)
  /-- ORR, opcode 13: bitwise or (R146). -/
  | orr (dst src : Reg)
  /-- XOR, opcode 14: bitwise exclusive or (R147). -/
  | xor (dst src : Reg)
  /-- NOT, opcode 15: complement the destination register (R148). -/
  | not (dst : Reg)
  /-- BRA, opcode 16: branch always (R160). -/
  | bra (location : BitVec 16)
  /-- Opcode 17, unassigned: an unrecognized instruction (R85). -/
  | unassigned17 (w : Word)
  /-- BRZ, opcode 18: branch if `dst` is zero (R161). -/
  | brz (dst : Reg) (location : BitVec 16)
  /-- BRP, opcode 19: branch if bit 31 of `dst` is clear (R162). -/
  | brp (dst : Reg) (location : BitVec 16)
  /-- Opcode 20, unassigned: an unrecognized instruction (R85). -/
  | unassigned20 (w : Word)
  /-- Opcode 21, unassigned: an unrecognized instruction (R85). -/
  | unassigned21 (w : Word)
  /-- Opcode 22, unassigned: an unrecognized instruction (R85). -/
  | unassigned22 (w : Word)
  /-- Opcode 23, unassigned: an unrecognized instruction (R85). -/
  | unassigned23 (w : Word)
  /-- Opcode 24, unassigned: an unrecognized instruction (R85). -/
  | unassigned24 (w : Word)
  /-- Opcode 25, unassigned: an unrecognized instruction (R85). -/
  | unassigned25 (w : Word)
  /-- Opcode 26, unassigned: an unrecognized instruction (R85). -/
  | unassigned26 (w : Word)
  /-- Opcode 27, unassigned: an unrecognized instruction (R85). -/
  | unassigned27 (w : Word)
  /-- Opcode 28, unassigned: an unrecognized instruction (R85). -/
  | unassigned28 (w : Word)
  /-- Opcode 29, unassigned: an unrecognized instruction (R85). -/
  | unassigned29 (w : Word)
  /-- Opcode 30, unassigned: an unrecognized instruction (R85). -/
  | unassigned30 (w : Word)
  /-- Opcode 31, unassigned: an unrecognized instruction (R85). -/
  | unassigned31 (w : Word)
  deriving DecidableEq, Repr

end Sys2Proof
end

