-- ==== Sys2Proof/WellFormed.lean ====
section
/-! DEFINITION. Which terms of `Instr` stand for an instruction word. The types already hold every range of the encoding
(indices 0..15, 16-bit locations); one check is left: an unassigned opcode carries its whole word, and that word must have
that opcode in bits 28..24 (30_encoding.md table R65, 40_cycle_hlt_unrecognized.md R85). -/

namespace Sys2Proof

/-- Bits 28..24 of a word, the operation selector (table R60). -/
def opcodeField (w : Word) : BitVec 5 := w.extractLsb' 24 5

/-- The well-formed instructions: those that some word encodes. -/
def Instr.wellFormed : Instr → Bool
  | .hlt => true
  | .unassigned01 w => opcodeField w == 1
  | .ldr _ _ => true
  | .str _ _ => true
  | .inp _ => true
  | .out _ => true
  | .cpr _ _ => true
  | .cpv _ _ => true
  | .add _ _ => true
  | .sub _ _ => true
  | .lsl _ _ => true
  | .lsr _ _ => true
  | .and _ _ => true
  | .orr _ _ => true
  | .xor _ _ => true
  | .not _ => true
  | .bra _ => true
  | .unassigned17 w => opcodeField w == 17
  | .brz _ _ => true
  | .brp _ _ => true
  | .unassigned20 w => opcodeField w == 20
  | .unassigned21 w => opcodeField w == 21
  | .unassigned22 w => opcodeField w == 22
  | .unassigned23 w => opcodeField w == 23
  | .unassigned24 w => opcodeField w == 24
  | .unassigned25 w => opcodeField w == 25
  | .unassigned26 w => opcodeField w == 26
  | .unassigned27 w => opcodeField w == 27
  | .unassigned28 w => opcodeField w == 28
  | .unassigned29 w => opcodeField w == 29
  | .unassigned30 w => opcodeField w == 30
  | .unassigned31 w => opcodeField w == 31

end Sys2Proof
end

