-- ==== Sys2Proof/Decode.lean ====
section
/-! DEFINITION. The decoder and the encoder (30_encoding.md). Two layers: words to fields and back (R62, R63), fields to
instructions and back (R65, R66, R82, R71). Decoding is total: no word is refused (R62). -/

namespace Sys2Proof

/-! ### Positions of the three flag bits (R61, the spec's decision D1; log 1): one edit here switches the reading. -/

/-- The bit of flg0, the destination-bank select. -/
def flg0Bit : Nat := 31

/-- The bit of flg1, the source-bank select. -/
def flg1Bit : Nat := 30

/-- The bit of flg2, the addressing mode of LDR and STR. -/
def flg2Bit : Nat := 29

/-! ### Words and fields -/

/-- The decoder proper: the seven fields of a word, extracted for every word (R62). -/
def decodeFields (w : Word) : Fields where
  flg0 := w.getLsbD flg0Bit
  flg1 := w.getLsbD flg1Bit
  flg2 := w.getLsbD flg2Bit
  opcode := w.extractLsb' 24 5
  rn := w.extractLsb' 20 4
  rm := w.extractLsb' 16 4
  location := w.extractLsb' 0 16

/-- The inverse of `decodeFields`, the sum of R63. -/
def encodeFields (f : Fields) : Word :=
  BitVec.ofNat 32 (f.flg0.toNat * 2 ^ flg0Bit + f.flg1.toNat * 2 ^ flg1Bit + f.flg2.toNat * 2 ^ flg2Bit
    + f.opcode.toNat * 2 ^ 24 + f.rn.toNat * 2 ^ 20 + f.rm.toNat * 2 ^ 16 + f.location.toNat)

/-! ### Fields and operands -/

/-- Bank selection by a flag: 0 is the general bank, 1 the system bank (R64, R82). -/
def Bank.ofFlag (flg : Bool) : Bank := if flg then .system else .general

/-- The flag that selects a bank. -/
def Bank.flag (b : Bank) : Bool := b == .system

/-- The `dst` operand: flg0 and Rn (R82). -/
def Fields.dst (f : Fields) : Reg := ⟨Bank.ofFlag f.flg0, f.rn.toFin⟩

/-- The `src` operand: flg1 and Rm (R82). -/
def Fields.src (f : Fields) : Reg := ⟨Bank.ofFlag f.flg1, f.rm.toFin⟩

/-- The address operand of LDR and STR: flg2 chooses (R100). -/
def Fields.addrMode (f : Fields) : AddrMode := if f.flg2 then .indirect f.src else .direct f.location

/-- Dispatch on the opcode field alone (R65, table R65). `w` is the whole word, which an unrecognized instruction reports
(R85). The last arm is opcode 31, the one value of a 5-bit field that is left. -/
def selectInstr (w : Word) (f : Fields) : Instr :=
  match f.opcode.toNat with
  | 0 => .hlt
  | 1 => .unassigned01 w
  | 2 => .ldr f.dst f.addrMode
  | 3 => .str f.dst f.addrMode
  | 4 => .inp f.dst
  | 5 => .out f.dst
  | 6 => .cpr f.dst f.src
  | 7 => .cpv f.dst f.location
  | 8 => .add f.dst f.src
  | 9 => .sub f.dst f.src
  | 10 => .lsl f.dst f.src
  | 11 => .lsr f.dst f.src
  | 12 => .and f.dst f.src
  | 13 => .orr f.dst f.src
  | 14 => .xor f.dst f.src
  | 15 => .not f.dst
  | 16 => .bra f.location
  | 17 => .unassigned17 w
  | 18 => .brz f.dst f.location
  | 19 => .brp f.dst f.location
  | 20 => .unassigned20 w
  | 21 => .unassigned21 w
  | 22 => .unassigned22 w
  | 23 => .unassigned23 w
  | 24 => .unassigned24 w
  | 25 => .unassigned25 w
  | 26 => .unassigned26 w
  | 27 => .unassigned27 w
  | 28 => .unassigned28 w
  | 29 => .unassigned29 w
  | 30 => .unassigned30 w
  | _ => .unassigned31 w

/-- The instruction a word stands for. Total: "there is no invalid encoding at the codec level" (R62). -/
def decode (w : Word) : Instr := selectInstr w (decodeFields w)

/-! ### The encoder (outside the hardware, R63): the canonical word, ignored fields 0 (R71, D14; log 14) -/

/-- The canonical fields of an instruction with a `dst` operand and perhaps a location. -/
def dstFields (op : BitVec 5) (dst : Reg) (location : BitVec 16 := 0) : Fields :=
  { opcode := op, flg0 := dst.bank.flag, rn := BitVec.ofFin dst.index, location := location }

/-- The canonical fields of an instruction with a `dst` and a `src` operand. -/
def dstSrcFields (op : BitVec 5) (dst src : Reg) : Fields :=
  { dstFields op dst with flg1 := src.bank.flag, rm := BitVec.ofFin src.index }

/-- The canonical fields of LDR and STR. -/
def memFields (op : BitVec 5) (dst : Reg) : AddrMode → Fields
  | .direct location => dstFields op dst location
  | .indirect src => { dstSrcFields op dst src with flg2 := true }

/-- The word of a well-formed instruction. -/
def encode : Instr → Word
  | .hlt => encodeFields { opcode := 0 }
  | .unassigned01 w => w
  | .ldr dst ea => encodeFields (memFields 2 dst ea)
  | .str dst ea => encodeFields (memFields 3 dst ea)
  | .inp dst => encodeFields (dstFields 4 dst)
  | .out dst => encodeFields (dstFields 5 dst)
  | .cpr dst src => encodeFields (dstSrcFields 6 dst src)
  | .cpv dst location => encodeFields (dstFields 7 dst location)
  | .add dst src => encodeFields (dstSrcFields 8 dst src)
  | .sub dst src => encodeFields (dstSrcFields 9 dst src)
  | .lsl dst src => encodeFields (dstSrcFields 10 dst src)
  | .lsr dst src => encodeFields (dstSrcFields 11 dst src)
  | .and dst src => encodeFields (dstSrcFields 12 dst src)
  | .orr dst src => encodeFields (dstSrcFields 13 dst src)
  | .xor dst src => encodeFields (dstSrcFields 14 dst src)
  | .not dst => encodeFields (dstFields 15 dst)
  | .bra location => encodeFields { opcode := 16, location := location }
  | .unassigned17 w => w
  | .brz dst location => encodeFields (dstFields 18 dst location)
  | .brp dst location => encodeFields (dstFields 19 dst location)
  | .unassigned20 w => w
  | .unassigned21 w => w
  | .unassigned22 w => w
  | .unassigned23 w => w
  | .unassigned24 w => w
  | .unassigned25 w => w
  | .unassigned26 w => w
  | .unassigned27 w => w
  | .unassigned28 w => w
  | .unassigned29 w => w
  | .unassigned30 w => w
  | .unassigned31 w => w

/-- The opcode of an instruction: the decimal column of table R65. -/
def Instr.opcode : Instr → BitVec 5
  | .hlt => 0
  | .unassigned01 _ => 1
  | .ldr _ _ => 2
  | .str _ _ => 3
  | .inp _ => 4
  | .out _ => 5
  | .cpr _ _ => 6
  | .cpv _ _ => 7
  | .add _ _ => 8
  | .sub _ _ => 9
  | .lsl _ _ => 10
  | .lsr _ _ => 11
  | .and _ _ => 12
  | .orr _ _ => 13
  | .xor _ _ => 14
  | .not _ => 15
  | .bra _ => 16
  | .unassigned17 _ => 17
  | .brz _ _ => 18
  | .brp _ _ => 19
  | .unassigned20 _ => 20
  | .unassigned21 _ => 21
  | .unassigned22 _ => 22
  | .unassigned23 _ => 23
  | .unassigned24 _ => 24
  | .unassigned25 _ => 25
  | .unassigned26 _ => 26
  | .unassigned27 _ => 27
  | .unassigned28 _ => 28
  | .unassigned29 _ => 29
  | .unassigned30 _ => 30
  | .unassigned31 _ => 31

/-- The instruction the decoder reads from the low `nbits` bits of `w`, every higher bit 0. Every instruction is one
32-bit word (R60), so more bits than 32 are no instruction. -/
def decodeTableWord (nbits w : Nat) : Option Instr :=
  if nbits ≤ 32 then some (decode (BitVec.ofNat 32 (w % 2 ^ nbits))) else none

end Sys2Proof
end

