-- ==== Sys2Proof/Machine/State.lean ====
section
/-! DEFINITION. The state of the machine (10_state.md R20, R32, R33), its faults and refusals, and the state after reset. -/

namespace Sys2Proof.Machine

/-- The machine's memory: 65536 words of 32 bits (R29), held as (byte number, byte) cells in one canonical form. Word `a`
is the bytes number `4 * a` to `4 * a + 3`, the lowest first, which is how the image file holds it (R42, D8). No instruction
can see a byte (R42), so the byte order inside the model is unobservable (log 8). Byte numbers rise strictly, and a
byte that reads as an unlisted one is not listed (`Memory.wf`). -/
abbrev Memory := List Host.Cell

/-- What a byte that is not listed reads as: memory is "zero-filled" (R33, R50, D17; log 16). -/
def Memory.unlisted : Byte := 0

/-- How many bytes the memory has: four for each of its 65536 words. -/
def Memory.size : Nat := 4 * Config.memWords

/-- The canonical form above a bound: every byte number is at least `lo` and within memory, the numbers rise strictly, and
no byte reads as an unlisted one. -/
def Memory.wfFrom : Nat → Memory → Bool
  | _, [] => true
  | lo, (b, v) :: rest =>
    decide (lo ≤ b) && decide (b < Memory.size) && v != Memory.unlisted && Memory.wfFrom (b + 1) rest

/-- The canonical form holds. -/
def Memory.wf (m : Memory) : Bool := Memory.wfFrom 0 m

/-- The run state (R28). -/
inductive RunState where
  /-- The engine repeats the cycle of R80. -/
  | running
  /-- Terminal: reached only by HLT, left only by a reset (R28, R203). -/
  | halted
  deriving DecidableEq, Repr

/-- An exchange with the environment. Each executed INP, OUT or unrecognized instruction makes exactly one (R114). -/
inductive Event where
  /-- `ConsoleRead()` returned `v` (R110). -/
  | read (v : Word)
  /-- `ConsoleWrite(v)` (R111). -/
  | wrote (v : Word)
  /-- `Diag(w)`, the report of the unrecognized instruction word `w` (R177). -/
  | diag (w : Word)
  deriving DecidableEq, Repr

/-- What comes after the console values listed in a state. -/
inductive InputTail where
  /-- Nothing: the console input is finite, unless the environment supplies more (R112, R209). -/
  | ends
  /-- It goes on for ever, with `Config.endlessInput source` from number `position` on (R32; log 19). -/
  | endless (source position : Nat)
  deriving DecidableEq, Repr

/-- The console input: "a possibly infinite sequence of i32 values of which INP consumes the first remaining one" (R32),
as plain data: the values listed, the next one first, and what comes after them (log 10, log 19). -/
structure ConsoleInput where
  /-- The values known one by one, the next one first. -/
  given : List Word
  /-- What comes after them. -/
  tail : InputTail
  deriving DecidableEq, Repr

/-- The finite console input of just these values. -/
def ConsoleInput.ofList (vs : List Word) : ConsoleInput := ⟨vs, .ends⟩

/-- No console value at all. -/
def ConsoleInput.empty : ConsoleInput := ConsoleInput.ofList []

/-- The state: all that R20 lists, the environment's sequences of R32, and one field of the model's own. -/
structure State where
  /-- `general[0..15]` (R21). -/
  general : Vector Word 16
  /-- `system[0..15]`; `system[0]` is the program counter (R22, R24). -/
  system : Vector Word 16
  /-- `mem[0..65535]` (R29). -/
  mem : Memory
  /-- Running or Halted (R28). -/
  run : RunState
  /-- The console input, finite or infinite: the values that INP has not yet consumed (R32, R110; log 10, log 19). -/
  consoleIn : ConsoleInput
  /-- Every console read, console write and diagnostic so far, the oldest first, in program order (R114; log 9). -/
  events : List Event
  /-- The model's own field, not the spec's state: the open parameter `PC_STORE_MASKED` of R6 and R26 (log 2). No
  instruction writes it. -/
  pcStoreMasked : Bool
  deriving DecidableEq, Repr

/-- The console output of R32: the values OUT has emitted so far, in order. -/
def State.consoleOut (s : State) : List Word :=
  s.events.filterMap fun e => match e with
    | .wrote v => some v
    | .read _ => none
    | .diag _ => none

/-- The diagnostic channel of R32: the words of the unrecognized instructions executed so far, in order. -/
def State.diagnostics (s : State) : List Word :=
  s.events.filterMap fun e => match e with
    | .diag w => some w
    | .read _ => none
    | .wrote _ => none

/-- The machine's faults: there is none. "No instruction can fault, trap or abort" (R175), no access can fail (R44), and no
behaviour of this machine is a fault (93_implementation_defined.md). Nothing raises one, so the type has no constructor
(log 17). -/
inductive Fault where
  deriving DecidableEq, Repr

/-- Why the model has no meaning for an instruction. -/
inductive Refusal where
  /-- An instruction that the model leaves out, raised by its arm of `exec` alone; safe. No arm raises it: every row of
  `opcode_table.json` has its meaning. -/
  | notModelled (mnemonic : String)
  deriving DecidableEq, Repr

/-- The machine right after reset, before an image is loaded (R33, R201): the program counter 0, Running, memory zero. The
other 31 registers are 0 by the spec's decision D4 (log 4). The console input is empty, nothing supplied yet (log 10), and
`PC_STORE_MASKED` has its default (R6; log 2). -/
def State.reset : State where
  general := Vector.replicate 16 0
  system := Vector.replicate 16 0
  mem := []
  run := .running
  consoleIn := ConsoleInput.empty
  events := []
  pcStoreMasked := false

end Sys2Proof.Machine
end

