-- ==== Sys2Proof/Machine/Ops.lean ====
section
/-! DEFINITION. The named operations over memory, registers, run state and console (00_scope.md R8, R9), and the fetch phase
of the cycle (40_cycle_hlt_unrecognized.md R80).

TAKING AN EXCEPTION: the machine has none. There is no trap entry, no trap return, no interrupt and no mode
(60_exceptions.md R175, R176, R180, R181, R186), so there is no such operation here. The one exceptional event, the report
of an unrecognized instruction, is `State.diag`. -/

namespace Sys2Proof.Machine

/-! ### Conversions (R8) -/

/-- `low16(v)`: bits 15..0 of a word, its value modulo 65536. -/
def low16 (v : Word) : Addr := v.extractLsb' 0 16

/-- `zext_32(v)`: a 16-bit unsigned value as a register value in 0..65535. -/
def zext32 (v : BitVec 16) : Word := v.setWidth 32

/-! ### Memory: bytes of the canonical list (log 8) -/

/-- Byte number `b`. -/
def Memory.readByte : Memory → Nat → Byte
  | [], _ => Memory.unlisted
  | (k, v) :: rest, b => if k = b then v else Memory.readByte rest b

/-- The memory without a listed byte `b`. -/
def Memory.erase (m : Memory) (b : Nat) : Memory := m.filter fun c => c.1 != b

/-- The memory with byte `b` listed before the first higher one. -/
def Memory.insert : Memory → Nat → Byte → Memory
  | [], b, v => [(b, v)]
  | (k, x) :: rest, b, v =>
    if b < k then (b, v) :: (k, x) :: rest else (k, x) :: Memory.insert rest b v

/-- The memory with byte `b` set to `v`; a byte that then reads as an unlisted one is not listed. -/
def Memory.writeByte (m : Memory) (b : Nat) (v : Byte) : Memory :=
  if v = Memory.unlisted then m.erase b else (m.erase b).insert b v

/-! ### Memory: words, the only accesses the machine has (R44, R45) -/

/-- `MemRead(a, 1)`: the word at word address `a`. It cannot fail (R44). -/
def Memory.readWord (m : Memory) (a : Addr) : Word :=
  m.readByte (4 * a.toNat + 3) ++ m.readByte (4 * a.toNat + 2) ++ m.readByte (4 * a.toNat + 1)
    ++ m.readByte (4 * a.toNat)

/-- `MemWrite(a, 1, v)`: the memory with the word at word address `a` set to `v`. It cannot fail (R44). -/
def Memory.writeWord (m : Memory) (a : Addr) (v : Word) : Memory :=
  (((m.writeByte (4 * a.toNat) (v.extractLsb' 0 8)).writeByte (4 * a.toNat + 1) (v.extractLsb' 8 8)).writeByte
    (4 * a.toNat + 2) (v.extractLsb' 16 8)).writeByte (4 * a.toNat + 3) (v.extractLsb' 24 8)

/-- The state with the word at `a` set to `v`. -/
def State.storeWord (s : State) (a : Addr) (v : Word) : State := { s with mem := s.mem.writeWord a v }

/-! ### Registers (R9, R21, R22) -/

/-- The value of a register. -/
def State.readReg (s : State) (r : Reg) : Word :=
  match r.bank with
  | .general => s.general.get r.index
  | .system => s.system.get r.index

/-- The state with all 32 bits of a register replaced (R21). -/
def State.writeReg (s : State) (r : Reg) (v : Word) : State :=
  { s with
    general := match r.bank with
      | .general => s.general.set r.index v
      | .system => s.general
    system := match r.bank with
      | .general => s.system
      | .system => s.system.set r.index v }

/-- `pc` is another name for `system[0]` (R24). -/
def State.pc (s : State) : Word := s.readReg Reg.pc

/-- `pc <- t`. -/
def State.setPc (s : State) (t : Word) : State := s.writeReg Reg.pc t

/-! ### The fetch phase (R80, R26) -/

/-- The fetch address, `low16(pc)` under both readings of the mask (R26, R44). -/
def State.fetchAddr (s : State) : Addr := low16 s.pc

/-- The word the cycle fetches (R80). -/
def State.fetchWord (s : State) : Word := s.mem.readWord s.fetchAddr

/-- The fetch phase's increment of the program counter, done before the instruction reads or writes any register (R25,
R80). The 32-bit addition wraps (R27, D3; log 3). Under `PC_STORE_MASKED` the masked value is incremented (R26; log 2). -/
def State.advancePc (s : State) : State :=
  s.setPc ((if s.pcStoreMasked then zext32 (low16 s.pc) else s.pc) + 1)

/-! ### Run state, console and diagnostics (R9) -/

/-- `run <- Halted`. -/
def State.halt (s : State) : State := { s with run := .halted }

/-- The state with one more exchange with the environment, in program order (R114). -/
def State.emit (s : State) (e : Event) : State := { s with events := s.events ++ [e] }

/-- The state with another console input. -/
def State.withConsoleIn (s : State) (c : ConsoleInput) : State := { s with consoleIn := c }

/-- The first value of a console input and the input without it, or nothing if there is no value (R32, R110). -/
def ConsoleInput.next : ConsoleInput → Option (Word × ConsoleInput)
  | ⟨v :: rest, tail⟩ => some (v, ⟨rest, tail⟩)
  | ⟨[], .endless source position⟩ =>
    some (Config.endlessInput source position, ⟨[], .endless source (position + 1)⟩)
  | ⟨[], .ends⟩ => none

/-- A console input followed by another one. After an infinite one nothing can come. -/
def ConsoleInput.append (c more : ConsoleInput) : ConsoleInput :=
  match c.tail with
  | .ends => ⟨c.given ++ more.given, more.tail⟩
  | .endless _ _ => c

/-- `ConsoleRead()`: the next value of the console input and the state without it, or nothing while the environment has
supplied none (R110, R112, D10). -/
def State.consoleRead (s : State) : Option (Word × State) :=
  match s.consoleIn.next with
  | none => none
  | some (v, rest) => some (v, (s.withConsoleIn rest).emit (.read v))

/-- `ConsoleWrite(v)` (R111). -/
def State.consoleWrite (s : State) (v : Word) : State := s.emit (.wrote v)

/-- `Diag(w)`: the report of an unrecognized instruction; no state is saved, no control is transferred (R177). -/
def State.diag (s : State) (w : Word) : State := s.emit (.diag w)

/-- The environment's move: it supplies further console values, finitely or infinitely many, to be read after those still
waiting (R209, R112). -/
def State.supply (s : State) (more : ConsoleInput) : State := s.withConsoleIn (s.consoleIn.append more)

end Sys2Proof.Machine
end

