-- ==== Sys2Proof/Machine/Operands.lean ====
section
/-! DEFINITION. The operand forms (30_encoding.md R64): register operands through `readReg` and `writeReg` with the bank
resolved (R82), the address operand of LDR and STR (R100), the 16-bit immediate and branch target (R64), and the shapes
that the instructions share (R87). Every operation here starts from the state at the start of the cycle and performs the
fetch phase's increment first, so an operand that names `system[0]` is the incremented value (R25, R80). -/

namespace Sys2Proof.Machine

/-- The effective address of LDR and STR, a word address (R100). -/
def State.effAddr (s : State) : AddrMode → Addr
  | .direct location => location
  | .indirect src => low16 (s.readReg src)

/-- Write `dst` with a value computed from the state after the increment: the one result of an instruction (R83). -/
def State.writeResult (s : State) (dst : Reg) (value : State → Word) : State :=
  let s1 := s.advancePc
  s1.writeReg dst (value s1)

/-- The two-operand shape: read `dst` and `src`, compute, write `dst` (R83, R130). -/
def State.alu2 (s : State) (f : Word → Word → Word) (dst src : Reg) : State :=
  s.writeResult dst fun s1 => f (s1.readReg dst) (s1.readReg src)

/-- The one-operand shape: read `dst`, compute, write `dst` (R148). -/
def State.alu1 (s : State) (f : Word → Word) (dst : Reg) : State :=
  s.writeResult dst fun s1 => f (s1.readReg dst)

/-- The branch shape: after the increment, the target replaces the program counter if the condition holds of the state
(R25, R160 to R162). -/
def State.branchIf (s : State) (cond : State → Bool) (location : BitVec 16) : State :=
  let s1 := s.advancePc
  if cond s1 then s1.setPc (zext32 location) else s1

/-- The unrecognized instruction: a no-op that reports its word (R85). -/
def State.unrecognized (s : State) (w : Word) : State := s.advancePc.diag w

end Sys2Proof.Machine
end

