-- ==== Sys2Proof/Machine/Flags.lean ====
section
/-! DEFINITION. Conditions and 32-bit results. The machine has NO status flags and no condition codes (10_state.md R30):
no instruction records carry, overflow, zero or sign, and the conditional branches test a register's value directly. What
stands here is those two tests and the results of the shift instructions. -/

namespace Sys2Proof.Machine

/-- BRZ's test: every bit of the register is 0 (R161). -/
def isZero (v : Word) : Bool := v == 0

/-- BRP's test: bit 31 is clear (R162). -/
def isNonNegative (v : Word) : Bool := !v.getLsbD 31

/-- The shift amount, read as a signed integer, lies in 0..31 (R133, R134, R136). -/
def amountInRange (k : Word) : Bool := decide (0 ≤ k.toInt) && decide (k.toInt ≤ 31)

/-- LSL's result: the pattern moves toward bit 31, zeros enter, the bits that leave are discarded (R133, D6; log 6);
outside 0..31 the free value (R135; log 5). -/
def shiftLeft (v k : Word) : Word :=
  if amountInRange k then v <<< k.toNat else Config.shiftOor .lsl v k

/-- LSR's result: the ARITHMETIC shift, copies of bit 31 enter at the top (R134, C5); outside 0..31 the free value (R135;
log 5). -/
def shiftRight (v k : Word) : Word :=
  if amountInRange k then v.sshiftRight k.toNat else Config.shiftOor .lsr v k

end Sys2Proof.Machine
end

