-- ==== Sys2Proof/Machine/Arith.lean ====
section
/-! DEFINITION. ADD, SUB, LSL, LSR (44_arithmetic_shift.md R130 to R136). Results wrap modulo 2^32; no flag is recorded (R130). -/

namespace Sys2Proof.Machine

/-- ADD: `dst <- wrap32(dst + src)` (R131). -/
def execAdd (dst src : Reg) (s : State) : Host.Outcome State Fault Refusal := .next (s.alu2 (fun a b => a + b) dst src)

/-- SUB: `dst <- wrap32(dst - src)`; the destination is the minuend (R132). -/
def execSub (dst src : Reg) (s : State) : Host.Outcome State Fault Refusal := .next (s.alu2 (fun a b => a - b) dst src)

/-- LSL: `dst` is shifted left by the whole value of `src` (R133, R135). -/
def execLsl (dst src : Reg) (s : State) : Host.Outcome State Fault Refusal := .next (s.alu2 shiftLeft dst src)

/-- LSR: `dst` is shifted right, arithmetically, by the whole value of `src` (R134, R135). -/
def execLsr (dst src : Reg) (s : State) : Host.Outcome State Fault Refusal := .next (s.alu2 shiftRight dst src)

end Sys2Proof.Machine
end

