-- ==== Sys2Proof/Machine/Branch.lean ====
section
/-! DEFINITION. BRA, BRZ, BRP (46_branch.md R160 to R164). A branch writes `system[0]` whatever its flag bits say. -/

namespace Sys2Proof.Machine

/-- BRA: `pc <- zext_32(location)` (R160). -/
def execBra (location : BitVec 16) (s : State) : Host.Outcome State Fault Refusal := .next (s.branchIf (fun _ => true) location)

/-- BRZ: branch if all 32 bits of `dst` are 0 (R161). -/
def execBrz (dst : Reg) (location : BitVec 16) (s : State) : Host.Outcome State Fault Refusal :=
  .next (s.branchIf (fun s1 => isZero (s1.readReg dst)) location)

/-- BRP: branch if bit 31 of `dst` is clear, zero included (R162). -/
def execBrp (dst : Reg) (location : BitVec 16) (s : State) : Host.Outcome State Fault Refusal :=
  .next (s.branchIf (fun s1 => isNonNegative (s1.readReg dst)) location)

end Sys2Proof.Machine
end

