-- ==== Sys2Proof/Machine/Control.lean ====
section
/-! DEFINITION. HLT (40_cycle_hlt_unrecognized.md R84). -/

namespace Sys2Proof.Machine

/-- HLT: after the common increment, `run <- Halted`; nothing else changes (R84). -/
def execHlt (s : State) : Host.Outcome State Fault Refusal := .next s.advancePc.halt

end Sys2Proof.Machine
end

