-- ==== Sys2Proof/Machine/Copy.lean ====
section
/-! DEFINITION. CPR and CPV (43_copy.md R120, R121). -/

namespace Sys2Proof.Machine

/-- CPR: `src` is copied to `dst`, all 32 bits (R120). -/
def execCpr (dst src : Reg) (s : State) : Host.Outcome State Fault Refusal := .next (s.writeResult dst fun s1 => s1.readReg src)

/-- CPV: the location field, zero-extended, goes to `dst` (R121). -/
def execCpv (dst : Reg) (location : BitVec 16) (s : State) : Host.Outcome State Fault Refusal :=
  .next (s.writeResult dst fun _ => zext32 location)

end Sys2Proof.Machine
end

