-- ==== Sys2Proof/Machine/InputOutput.lean ====
section
/-! DEFINITION. INP and OUT (42_io.md R110 to R114). -/

namespace Sys2Proof.Machine

/-- INP: the next console value goes to `dst` (R112). While the environment has supplied none the engine is held, Running,
inside this instruction: no step is enabled, so the state is left as it is and the same instruction is tried again (R112,
D10, U7; log 10). -/
def execInp (dst : Reg) (s : State) : Host.Outcome State Fault Refusal :=
  match s.advancePc.consoleRead with
  | none => .next s
  | some (v, s1) => .next (s1.writeReg dst v)

/-- OUT: `dst` is emitted to the console; no register is written besides the increment (R113). -/
def execOut (dst : Reg) (s : State) : Host.Outcome State Fault Refusal :=
  let s1 := s.advancePc
  .next (s1.consoleWrite (s1.readReg dst))

end Sys2Proof.Machine
end

