-- ==== Sys2Proof/Machine/LoadStore.lean ====
section
/-! DEFINITION. LDR and STR (41_load_store.md R100 to R103). -/

namespace Sys2Proof.Machine

/-- LDR: the word at the effective address goes to `dst`, its 32-bit pattern unchanged (R101, D7; log 7). -/
def execLdr (dst : Reg) (ea : AddrMode) (s : State) : Host.Outcome State Fault Refusal :=
  .next (s.writeResult dst fun s1 => s1.mem.readWord (s1.effAddr ea))

/-- STR: all 32 bits of `dst` go to the word at the effective address; no register is written besides the increment (R102). -/
def execStr (dst : Reg) (ea : AddrMode) (s : State) : Host.Outcome State Fault Refusal :=
  let s1 := s.advancePc
  .next (s1.storeWord (s1.effAddr ea) (s1.readReg dst))

end Sys2Proof.Machine
end

