-- ==== Sys2Proof/Machine/Logic.lean ====
section
/-! DEFINITION. AND, ORR, XOR, NOT (45_logic.md R145 to R148), bit by bit. -/

namespace Sys2Proof.Machine

/-- AND (R145). -/
def execAnd (dst src : Reg) (s : State) : Host.Outcome State Fault Refusal := .next (s.alu2 (fun a b => a &&& b) dst src)

/-- ORR, inclusive or (R146). -/
def execOrr (dst src : Reg) (s : State) : Host.Outcome State Fault Refusal := .next (s.alu2 (fun a b => a ||| b) dst src)

/-- XOR (R147). -/
def execXor (dst src : Reg) (s : State) : Host.Outcome State Fault Refusal := .next (s.alu2 (fun a b => a ^^^ b) dst src)

/-- NOT: complements its DESTINATION register in place; the source operand is not looked at (R148). -/
def execNot (dst : Reg) (s : State) : Host.Outcome State Fault Refusal := .next (s.alu1 (fun a => ~~~a) dst)

end Sys2Proof.Machine
end

