-- ==== Sys2Proof/Machine/Unassigned.lean ====
section
/-! DEFINITION. The 14 unassigned opcodes (40_cycle_hlt_unrecognized.md R85, 60_exceptions.md R177): each reports its word as
a diagnostic and is otherwise a no-op; the engine does not halt. -/

namespace Sys2Proof.Machine

/-- Opcode 1: `Diag(w)`, then the next instruction (R85). -/
def execUnassigned01 (w : Word) (s : State) : Host.Outcome State Fault Refusal := .next (s.unrecognized w)

/-- Opcode 17: `Diag(w)`, then the next instruction (R85). -/
def execUnassigned17 (w : Word) (s : State) : Host.Outcome State Fault Refusal := .next (s.unrecognized w)

/-- Opcode 20: `Diag(w)`, then the next instruction (R85). -/
def execUnassigned20 (w : Word) (s : State) : Host.Outcome State Fault Refusal := .next (s.unrecognized w)

/-- Opcode 21: `Diag(w)`, then the next instruction (R85). -/
def execUnassigned21 (w : Word) (s : State) : Host.Outcome State Fault Refusal := .next (s.unrecognized w)

/-- Opcode 22: `Diag(w)`, then the next instruction (R85). -/
def execUnassigned22 (w : Word) (s : State) : Host.Outcome State Fault Refusal := .next (s.unrecognized w)

/-- Opcode 23: `Diag(w)`, then the next instruction (R85). -/
def execUnassigned23 (w : Word) (s : State) : Host.Outcome State Fault Refusal := .next (s.unrecognized w)

/-- Opcode 24: `Diag(w)`, then the next instruction (R85). -/
def execUnassigned24 (w : Word) (s : State) : Host.Outcome State Fault Refusal := .next (s.unrecognized w)

/-- Opcode 25: `Diag(w)`, then the next instruction (R85). -/
def execUnassigned25 (w : Word) (s : State) : Host.Outcome State Fault Refusal := .next (s.unrecognized w)

/-- Opcode 26: `Diag(w)`, then the next instruction (R85). -/
def execUnassigned26 (w : Word) (s : State) : Host.Outcome State Fault Refusal := .next (s.unrecognized w)

/-- Opcode 27: `Diag(w)`, then the next instruction (R85). -/
def execUnassigned27 (w : Word) (s : State) : Host.Outcome State Fault Refusal := .next (s.unrecognized w)

/-- Opcode 28: `Diag(w)`, then the next instruction (R85). -/
def execUnassigned28 (w : Word) (s : State) : Host.Outcome State Fault Refusal := .next (s.unrecognized w)

/-- Opcode 29: `Diag(w)`, then the next instruction (R85). -/
def execUnassigned29 (w : Word) (s : State) : Host.Outcome State Fault Refusal := .next (s.unrecognized w)

/-- Opcode 30: `Diag(w)`, then the next instruction (R85). -/
def execUnassigned30 (w : Word) (s : State) : Host.Outcome State Fault Refusal := .next (s.unrecognized w)

/-- Opcode 31: `Diag(w)`, then the next instruction (R85). -/
def execUnassigned31 (w : Word) (s : State) : Host.Outcome State Fault Refusal := .next (s.unrecognized w)

end Sys2Proof.Machine
end

