-- ==== Sys2Proof/Machine/Dispatch.lean ====
section
/-! DEFINITION. The dispatch on the instruction (40_cycle_hlt_unrecognized.md R80, R87): one arm for each constructor. -/

namespace Sys2Proof.Machine

-- One whole cycle after the fetch of its word: the increment of the program counter and the instruction's own effect.
def exec (i : Instr) (s : State) : Host.Outcome State Fault Refusal :=
  match i with
  | .hlt => Sys2Proof.Machine.execHlt s
  | .unassigned01 w => Sys2Proof.Machine.execUnassigned01 w s
  | .ldr dst ea => Sys2Proof.Machine.execLdr dst ea s
  | .str dst ea => Sys2Proof.Machine.execStr dst ea s
  | .inp dst => Sys2Proof.Machine.execInp dst s
  | .out dst => Sys2Proof.Machine.execOut dst s
  | .cpr dst src => Sys2Proof.Machine.execCpr dst src s
  | .cpv dst location => Sys2Proof.Machine.execCpv dst location s
  | .add dst src => Sys2Proof.Machine.execAdd dst src s
  | .sub dst src => Sys2Proof.Machine.execSub dst src s
  | .lsl dst src => Sys2Proof.Machine.execLsl dst src s
  | .lsr dst src => Sys2Proof.Machine.execLsr dst src s
  | .and dst src => Sys2Proof.Machine.execAnd dst src s
  | .orr dst src => Sys2Proof.Machine.execOrr dst src s
  | .xor dst src => Sys2Proof.Machine.execXor dst src s
  | .not dst => Sys2Proof.Machine.execNot dst s
  | .bra location => Sys2Proof.Machine.execBra location s
  | .unassigned17 w => Sys2Proof.Machine.execUnassigned17 w s
  | .brz dst location => Sys2Proof.Machine.execBrz dst location s
  | .brp dst location => Sys2Proof.Machine.execBrp dst location s
  | .unassigned20 w => Sys2Proof.Machine.execUnassigned20 w s
  | .unassigned21 w => Sys2Proof.Machine.execUnassigned21 w s
  | .unassigned22 w => Sys2Proof.Machine.execUnassigned22 w s
  | .unassigned23 w => Sys2Proof.Machine.execUnassigned23 w s
  | .unassigned24 w => Sys2Proof.Machine.execUnassigned24 w s
  | .unassigned25 w => Sys2Proof.Machine.execUnassigned25 w s
  | .unassigned26 w => Sys2Proof.Machine.execUnassigned26 w s
  | .unassigned27 w => Sys2Proof.Machine.execUnassigned27 w s
  | .unassigned28 w => Sys2Proof.Machine.execUnassigned28 w s
  | .unassigned29 w => Sys2Proof.Machine.execUnassigned29 w s
  | .unassigned30 w => Sys2Proof.Machine.execUnassigned30 w s
  | .unassigned31 w => Sys2Proof.Machine.execUnassigned31 w s

end Sys2Proof.Machine
end

