-- ==== Sys2Proof/Machine/Step.lean ====
section
/-! DEFINITION. One step of the machine (40_cycle_hlt_unrecognized.md R80, R81). -/

namespace Sys2Proof.Machine

/-- One cycle of a Running engine: fetch the word at `low16(pc)`, decode it, and execute it, which begins with the increment
of the program counter (R80). A Halted engine performs no cycle and nothing changes (R28, R84; log 11). -/
def step (s : State) : Host.Outcome State Fault Refusal :=
  match s.run with
  | .halted => .next s
  | .running => exec (decode s.fetchWord) s

/-- The state with the instruction whose low `nbits` bits are `w`, every higher bit 0, stored at the fetch address, and
Running, so that the next step fetches and runs it. It stands for the image load that puts a program into memory (R50;
log 15). -/
def State.withFetchWord (s : State) (nbits w : Nat) : State :=
  { s.storeWord s.fetchAddr (BitVec.ofNat 32 (w % 2 ^ nbits)) with run := .running }

end Sys2Proof.Machine
end

