-- ==== Sys2Proof/Machine/Launch.lean ====
section
/-! DEFINITION. The image load and the reset that begins a run (20_memory.md R42, R50; 70_reset_and_hazards.md R200, R201,
R203). The loader itself, its files and prompts, is out of scope (R4). -/

namespace Sys2Proof.Machine

/-- Why an image is refused before any execution begins (R178 row (a)). These are the loader's refusals, not the machine's:
the engine executes no cycle. -/
inductive LoadError where
  /-- The image has more than 65536 words (R50). -/
  | tooLarge
  /-- The image file's length is not a multiple of four bytes (D8; log 8). -/
  | partialWord
  deriving DecidableEq, Repr

/-- The words of an image file, little-endian (R42, D8). -/
def imageWords : List Byte → Except LoadError (List Word)
  | [] => .ok []
  | b0 :: b1 :: b2 :: b3 :: rest =>
    match imageWords rest with
    | .ok ws => .ok ((b3 ++ b2 ++ b1 ++ b0) :: ws)
    | .error e => .error e
  | _ => .error .partialWord

/-- The memory `m` with the words of an image placed from word address `a` upward. -/
def Memory.place (m : Memory) (a : Nat) : List Word → Memory
  | [] => m
  | w :: rest => (m.writeWord (BitVec.ofNat 16 a) w).place (a + 1) rest

/-- Reset, with an image: every register, the run state, the whole memory and both output sequences start afresh (R201,
R203, D12), the image goes to address 0 upward and the rest of memory is zero (R50). The console input is the
environment's and is not touched by a reset (R33), nor is the parameter `PC_STORE_MASKED` (log 13). -/
def State.launch (s : State) (image : List Word) : Except LoadError State :=
  if image.length ≤ Config.memWords then
    .ok { State.reset with
      mem := Memory.place [] 0 image
      consoleIn := s.consoleIn
      pcStoreMasked := s.pcStoreMasked }
  else .error .tooLarge

end Sys2Proof.Machine
end

