-- ==== Sys2Proof/Safety.lean ====
section
/-! DEFINITION. The vocabulary of claims: values as the spec's rules write them, what an instruction leaves unchanged,
the launch premises of 70_reset_and_hazards.md R205, runs, and what counts as a safe run. Where a rule gives a formula, the
formula stands here in the rule's own arithmetic, apart from the operations the meanings use. -/

namespace Sys2Proof.Machine

/-! ### Values as the rules write them -/

/-- `wrap32(n)`: n modulo 2^32, read as signed (R8). -/
def wrap32 (n : Int) : Int := if n % 2 ^ 32 < 2 ^ 31 then n % 2 ^ 32 else n % 2 ^ 32 - 2 ^ 32

/-- What the fetch phase leaves in `system[0]`, under both readings of the mask (R26, R80; log 2). -/
def pcAfterFetch (s : State) : Word :=
  if s.pcStoreMasked then BitVec.ofNat 32 (s.pc.toNat % 65536 + 1) else BitVec.ofInt 32 (s.pc.toInt + 1)

/-- The value an operand has when the instruction reads it: `system[0]` is already incremented (R25, R80). -/
def operandValue (s : State) (r : Reg) : Word := if r = Reg.pc then pcAfterFetch s else s.readReg r

/-- The register that a bank-select flag and a 4-bit index name (R64, R82). -/
def regOf (flg : Bool) (n : BitVec 4) : Reg := if flg then ⟨.system, n.toFin⟩ else ⟨.general, n.toFin⟩

/-- The effective address of LDR and STR as a number (R100): the location, or the register's value modulo 65536. -/
def addressOf (s : State) : AddrMode → Nat
  | .direct location => location.toNat
  | .indirect src => (operandValue s src).toNat % 65536

/-- The register an instruction writes as its result: column "writes `dst[Rn]`" of table R23. -/
def destination : Instr → Option Reg
  | .ldr dst _ => some dst
  | .inp dst => some dst
  | .cpr dst _ => some dst
  | .cpv dst _ => some dst
  | .add dst _ => some dst
  | .sub dst _ => some dst
  | .lsl dst _ => some dst
  | .lsr dst _ => some dst
  | .and dst _ => some dst
  | .orr dst _ => some dst
  | .xor dst _ => some dst
  | .not dst => some dst
  | .hlt => none
  | .str _ _ => none
  | .out _ => none
  | .bra _ => none
  | .brz _ _ => none
  | .brp _ _ => none
  | .unassigned01 _ => none
  | .unassigned17 _ => none
  | .unassigned20 _ => none
  | .unassigned21 _ => none
  | .unassigned22 _ => none
  | .unassigned23 _ => none
  | .unassigned24 _ => none
  | .unassigned25 _ => none
  | .unassigned26 _ => none
  | .unassigned27 _ => none
  | .unassigned28 _ => none
  | .unassigned29 _ => none
  | .unassigned30 _ => none
  | .unassigned31 _ => none

/-- The bits of a word that its instruction uses: table R66, with the flags where decision D1 puts them (log 1, log 14). -/
def usedMask (w : Word) : Word :=
  match (opcodeField w).toNat with
  | 0 => 0x1F000000
  | 2 => if w.getLsbD 29 then 0xFFFF0000 else 0xBFF0FFFF
  | 3 => if w.getLsbD 29 then 0xFFFF0000 else 0xBFF0FFFF
  | 4 => 0x9FF00000
  | 5 => 0x9FF00000
  | 6 => 0xDFFF0000
  | 7 => 0x9FF0FFFF
  | 8 => 0xDFFF0000
  | 9 => 0xDFFF0000
  | 10 => 0xDFFF0000
  | 11 => 0xDFFF0000
  | 12 => 0xDFFF0000
  | 13 => 0xDFFF0000
  | 14 => 0xDFFF0000
  | 15 => 0x9FF00000
  | 16 => 0x1F00FFFF
  | 18 => 0x9FF0FFFF
  | 19 => 0x9FF0FFFF
  | _ => 0xFFFFFFFF

/-- The 14 unassigned opcodes (table R65, R85). -/
def unassignedOpcodes : List Nat := [1, 17, 20, 21, 22, 23, 24, 25, 26, 27, 28, 29, 30, 31]

/-- The word the next cycle fetches has one of the 18 assigned opcodes. -/
def Recognized (s : State) : Prop := (opcodeField s.fetchWord).toNat ∉ unassignedOpcodes

/-- The value of a console read, for the other events nothing. -/
def readValue : Event → Option Word
  | .read v => some v
  | .wrote _ => none
  | .diag _ => none

/-- The value number `i` of a console input, counted from the next one to be read, if it has that many (R32). -/
def ConsoleInput.valueAt (c : ConsoleInput) (i : Nat) : Option Word :=
  if i < c.given.length then c.given[i]?
  else match c.tail with
    | .ends => none
    | .endless source position => some (Config.endlessInput source (position + (i - c.given.length)))

/-- What a step of a Running engine hands to or takes from the environment (R114): one event for an INP that finds a value,
an OUT or an unrecognized instruction, none otherwise. -/
def eventsOf (s : State) : List Event :=
  match decode s.fetchWord, s.consoleIn.valueAt 0 with
  | .inp _, some v => [.read v]
  | .inp _, none => []
  | .out dst, _ => [.wrote (operandValue s dst)]
  | _, _ =>
    if (opcodeField s.fetchWord).toNat ∈ unassignedOpcodes then [.diag s.fetchWord] else []

/-! ### What stays as it was -/

/-- Every register other than `dst` is as before, the program counter as the fetch phase leaves it (R83). -/
def RegsKept (s t : State) (dst : Option Reg) : Prop := ∀ r, dst ≠ some r → t.readReg r = operandValue s r

/-- Every byte of memory reads as before. -/
def MemKept (s t : State) : Prop := ∀ b, t.mem.readByte b = s.mem.readByte b

/-- Every byte outside the word at `a` reads as before. -/
def MemKeptOutside (s t : State) (a : Addr) : Prop :=
  ∀ b, b < 4 * a.toNat ∨ 4 * a.toNat + 4 ≤ b → t.mem.readByte b = s.mem.readByte b

/-- The console input and all exchanges so far are as before, and so is the parameter. -/
def ConsoleKept (s t : State) : Prop :=
  t.consoleIn = s.consoleIn ∧ t.events = s.events ∧ t.pcStoreMasked = s.pcStoreMasked

/-- The frame of an instruction that writes one register and nothing else. -/
structure OnlyRegWritten (s t : State) (dst : Reg) : Prop where
  regs : RegsKept s t (some dst)
  mem : MemKept s t
  run : t.run = s.run
  console : ConsoleKept s t

/-! ### Launch premises (R205) -/

/-- `ImageFits`: at most 65536 words, and memory holds them from address 0, the rest zero. -/
def ImageFits (image : List Word) (s : State) : Prop :=
  image.length ≤ Config.memWords ∧ ∀ a : Addr, s.mem.readWord a = image.getD a.toNat 0

/-- `PcZero`. -/
def PcZero (s : State) : Prop := s.pc = 0

/-- `Running`. -/
def Running (s : State) : Prop := s.run = .running

/-- `RegsZero`: the other 31 registers are 0 (the spec's decision D4; log 4). -/
def RegsZero (s : State) : Prop := ∀ r, r ≠ Reg.pc → s.readReg r = 0

/-- `OutputsEmpty`. -/
def OutputsEmpty (s : State) : Prop := s.consoleOut = [] ∧ s.diagnostics = []

/-- The argument of `Input(xs)`: a sequence of console values, "finite or infinite" (R205). -/
inductive InputSeq where
  /-- These values and no others. -/
  | finite (xs : List Word)
  /-- A value for each number. -/
  | infinite (xs : Nat → Word)

/-- The value number `i` of the sequence, if it has that many. -/
def InputSeq.valueAt : InputSeq → Nat → Option Word
  | .finite xs, i => xs[i]?
  | .infinite xs, i => some (xs i)

/-- The first `n` values of the sequence, or all if there are fewer. -/
def InputSeq.first : InputSeq → Nat → List Word
  | .finite xs, n => xs.take n
  | .infinite xs, n => (List.range n).map xs

/-- The sequence without its first `n` values. -/
def InputSeq.drop : InputSeq → Nat → InputSeq
  | .finite xs, n => .finite (xs.drop n)
  | .infinite xs, n => .infinite fun i => xs (n + i)

/-- `Input(xs)`: the console input sequence is `xs`, value for value, finite or infinite (R205; log 19). -/
def Input (xs : InputSeq) (s : State) : Prop := ∀ i, s.consoleIn.valueAt i = xs.valueAt i

/-! ### Runs and safety -/

/-- The model's invariant: the memory has its canonical form. -/
def CanonicalMem (s : State) : Prop := s.mem.wf = true

/-- `Runs P k s t`: k steps lead from `s` to `t`, and each of the k states a step starts from meets `P`. -/
inductive Runs (P : State → Prop) : Nat → State → State → Prop
  /-- No step. -/
  | done (s : State) : Runs P 0 s s
  /-- One step and then the others. -/
  | more {k : Nat} {s u t : State} (here : P s) (first : step s = .next u) (rest : Runs P k u t) : Runs P (k + 1) s t

/-- k steps lead from `s` to `t`. -/
def Reaches (k : Nat) (s t : State) : Prop := Runs (fun _ => True) k s t

/-- A safe run in the sense of R177: no unrecognized instruction is executed, so no diagnostic is emitted. -/
def NoDiagnostic (s t : State) : Prop := t.diagnostics = s.diagnostics

end Sys2Proof.Machine
end

