-- ==== Sys2Proof/Certificates/Slice0/Obligations.lean ====
section
/-! DEFINITION. The statements for the provers. Each formalises rules of spec/; the vocabulary is Safety.lean's. -/

open Sys2Proof Sys2Proof.Machine

/-- Table R33. The 31 registers other than the program counter are 0 by the spec's decision D4 (log 4), the console input is
empty by the model's choice (log 10), the parameter has the default of R6 (log 2). -/
def Obligations.ResetStateValues : Prop :=
  State.reset.pc = 0 ∧ State.reset.run = .running ∧ (∀ a, State.reset.mem.readWord a = 0) ∧
    State.reset.consoleOut = [] ∧ State.reset.diagnostics = [] ∧
    (∀ r, State.reset.readReg r = 0) ∧ State.reset.consoleIn = .empty ∧ State.reset.pcStoreMasked = false

/-- The invariant of `StepKeepsMemoryCanonical` holds at reset. The canonical form is the model's (log 8). -/
def Obligations.ResetMemoryIsCanonical : Prop :=
  CanonicalMem State.reset

/-- From every state with a canonical memory, whatever the instruction, the next state's memory is canonical (log 8). -/
def Obligations.StepKeepsMemoryCanonical : Prop :=
  ∀ s t, CanonicalMem s → step s = .next t → CanonicalMem t

/-- The representation of memory (log 8) holds the 65536 words of R29 and nothing more. -/
def Obligations.CanonicalMemoriesEqualByWords : Prop :=
  ∀ m n : Memory, m.wf = true → n.wf = true → (∀ a, m.readWord a = n.readWord a) → m = n

/-- The cycle of R80: fetch at `low16(pc)`, decode, execute. `exec` includes the increment (log 18). -/
def Obligations.StepRunsDecodedInstruction : Prop :=
  ∀ (s : State) (i : Instr), s.run = .running →
    decode (s.mem.readWord (BitVec.ofNat 16 (s.pc.toNat % 65536))) = i → i.wellFormed = true →
    step s = exec i s

/-- Words of 30_encoding.md section 5 and of the vectors V-DEC, V-BR-4; the flag positions are decision D1 (log 1). -/
def Obligations.HandWrittenWordsDecode : Prop :=
  decode 0x00000000 = .hlt ∧ decode 0xE0FFFFFF = .hlt ∧
    decode 0x22410000 = .ldr ⟨.general, 4⟩ (.indirect ⟨.general, 1⟩) ∧
    decode 0x02300100 = .ldr ⟨.general, 3⟩ (.direct 0x0100) ∧
    decode 0x63050000 = .str ⟨.general, 0⟩ (.indirect ⟨.system, 5⟩) ∧
    decode 0x04100000 = .inp ⟨.general, 1⟩ ∧ decode 0x05F00000 = .out ⟨.general, 15⟩ ∧
    decode 0x46000000 = .cpr ⟨.general, 0⟩ ⟨.system, 0⟩ ∧ decode 0x87500030 = .cpv ⟨.system, 5⟩ 48 ∧
    decode 0xA8010000 = .add ⟨.system, 0⟩ ⟨.general, 1⟩ ∧ decode 0x4F030000 = .not ⟨.general, 0⟩ ∧
    decode 0xF0FF0003 = .bra 3 ∧ decode 0x13F0FFFF = .brp ⟨.general, 15⟩ 65535 ∧
    decode 0x01ABCDEF = .unassigned01 0x01ABCDEF

/-- The round trip that 30_encoding.md section 2 states and marks as derived; the flag positions are decision D1 (log 1). -/
def Obligations.FieldsRoundTrip : Prop :=
  (∀ w, encodeFields (decodeFields w) = w) ∧ ∀ f, decodeFields (encodeFields f) = f

/-- Decode and encode agree over the whole instruction set; flag positions by decision D1 (log 1), canonical words by D14
(log 14). -/
def Obligations.DecodeEncodeRoundTrip : Prop :=
  ∀ i : Instr, i.wellFormed = true → decode (encode i) = i

/-- R65: dispatch on the opcode field alone, over the map of table R65. -/
def Obligations.DecodedOpcodeIsOpcodeField : Prop :=
  (∀ w, (decode w).wellFormed = true ∧ (decode w).opcode = opcodeField w) ∧
    ∀ w f w' f', f.opcode = f'.opcode → (selectInstr w f).opcode = (selectInstr w' f').opcode

/-- Table R66 for every word: the used fields survive, the ignored ones do not matter (decision D15, log 14; D1, log 1). -/
def Obligations.EncodeDecodeKeepsUsedFields : Prop :=
  ∀ w, encode (decode w) = w &&& usedMask w

/-- R84. -/
def Obligations.HltHalts : Prop :=
  (∀ w f, f.opcode = 0 → selectInstr w f = .hlt) ∧
    ∀ s, ∃ t, exec .hlt s = .next t ∧ t.run = .halted ∧ RegsKept s t none ∧ MemKept s t ∧ ConsoleKept s t ∧
      ∀ u, step t = .next u → u = t

/-- The 14 unassigned opcodes (40_cycle_hlt_unrecognized.md section 4). That the report is an event carrying the whole word is
the spec's decision D9, that it stands in the one sequence `events` is the model's choice (both log 9). -/
def Obligations.UnassignedOpcodesReportAndGoOn : Prop :=
  ∀ p ∈ ([(1, .unassigned01), (17, .unassigned17), (20, .unassigned20), (21, .unassigned21), (22, .unassigned22),
      (23, .unassigned23), (24, .unassigned24), (25, .unassigned25), (26, .unassigned26), (27, .unassigned27),
      (28, .unassigned28), (29, .unassigned29), (30, .unassigned30), (31, .unassigned31)] : List (Nat × (Word → Instr))),
    ∀ (w : Word) (s : State), ((opcodeField w).toNat = p.1 → decode w = p.2 w) ∧
      ∃ t, exec (p.2 w) s = .next t ∧ t.events = s.events ++ [.diag w] ∧ t.diagnostics = s.diagnostics ++ [w] ∧
        t.consoleOut = s.consoleOut ∧ RegsKept s t none ∧ MemKept s t ∧ t.run = s.run ∧ t.consoleIn = s.consoleIn ∧
        t.pcStoreMasked = s.pcStoreMasked

/-- R101, with the address of R100. -/
def Obligations.LdrLoadsWord : Prop :=
  (∀ w f, f.opcode = 2 → selectInstr w f = .ldr (regOf f.flg0 f.rn) (if f.flg2 then .indirect (regOf f.flg1 f.rm) else .direct f.location)) ∧
    ∀ dst ea s, ∃ t, exec (.ldr dst ea) s = .next t ∧
      t.readReg dst = s.mem.readWord (BitVec.ofNat 16 (addressOf s ea)) ∧ OnlyRegWritten s t dst

/-- R102, with the address of R100. -/
def Obligations.StrStoresWord : Prop :=
  (∀ w f, f.opcode = 3 → selectInstr w f = .str (regOf f.flg0 f.rn) (if f.flg2 then .indirect (regOf f.flg1 f.rm) else .direct f.location)) ∧
    ∀ dst ea s, ∃ t, exec (.str dst ea) s = .next t ∧ (s.advancePc.effAddr ea).toNat = addressOf s ea ∧
      ∀ a, s.advancePc.effAddr ea = a → t.mem.readWord a = operandValue s dst ∧ MemKeptOutside s t a ∧
        RegsKept s t none ∧ t.run = s.run ∧ ConsoleKept s t

/-- INP when a value is there (42_io.md section 2); the console as a sequence is decision D10 (log 10), its form as data log 19,
the record of the read log 9. -/
def Obligations.InpTakesNextValue : Prop :=
  (∀ w f, f.opcode = 4 → selectInstr w f = .inp (regOf f.flg0 f.rn)) ∧
    ∀ dst s v, s.consoleIn.valueAt 0 = some v → ∃ t, exec (.inp dst) s = .next t ∧ t.readReg dst = v ∧
      (∀ i, t.consoleIn.valueAt i = s.consoleIn.valueAt (i + 1)) ∧ t.events = s.events ++ [.read v] ∧ RegsKept s t (some dst) ∧ MemKept s t ∧
      t.run = s.run ∧ t.pcStoreMasked = s.pcStoreMasked

/-- The hold of 42_io.md section 2, by decision D10. That the held engine is a step to the same state is the model's choice
(log 10). -/
def Obligations.InpHoldsUntilSupplied : Prop :=
  ∀ dst s v, s.run = .running → decode s.fetchWord = .inp dst → s.consoleIn = .empty → step s = .next s ∧
    ∀ more : ConsoleInput, more.valueAt 0 = some v → ∃ t, step (s.supply more) = .next t ∧ t.readReg dst = v ∧
      (∀ i, t.consoleIn.valueAt i = more.valueAt (i + 1)) ∧ t.events = s.events ++ [.read v] ∧ RegsKept s t (some dst) ∧ MemKept s t ∧ t.run = .running

/-- OUT (42_io.md section 3). The output as a sequence is the spec's decision D10 (log 10), the one sequence `events` of all
exchanges is the model's choice (log 9). The value is the 32-bit pattern of the signed value (log 7). -/
def Obligations.OutEmitsRegister : Prop :=
  (∀ w f, f.opcode = 5 → selectInstr w f = .out (regOf f.flg0 f.rn)) ∧
    ∀ dst s, ∃ t, exec (.out dst) s = .next t ∧ t.consoleOut = s.consoleOut ++ [operandValue s dst] ∧
      t.events = s.events ++ [.wrote (operandValue s dst)] ∧ t.diagnostics = s.diagnostics ∧ RegsKept s t none ∧
      MemKept s t ∧ t.run = s.run ∧ t.consoleIn = s.consoleIn ∧ t.pcStoreMasked = s.pcStoreMasked

/-- R120. -/
def Obligations.CprCopiesRegister : Prop :=
  (∀ w f, f.opcode = 6 → selectInstr w f = .cpr (regOf f.flg0 f.rn) (regOf f.flg1 f.rm)) ∧
    ∀ dst src s, ∃ t, exec (.cpr dst src) s = .next t ∧ OnlyRegWritten s t dst ∧
      t.readReg dst = operandValue s src

/-- R121. -/
def Obligations.CpvLoadsImmediate : Prop :=
  (∀ w f, f.opcode = 7 → selectInstr w f = .cpv (regOf f.flg0 f.rn) f.location) ∧
    ∀ dst location s, ∃ t, exec (.cpv dst location) s = .next t ∧ OnlyRegWritten s t dst ∧
      (t.readReg dst).toInt = (location.toNat : Int)

/-- R131. -/
def Obligations.AddWritesWrappedSum : Prop :=
  (∀ w f, f.opcode = 8 → selectInstr w f = .add (regOf f.flg0 f.rn) (regOf f.flg1 f.rm)) ∧
    ∀ dst src s, ∃ t, exec (.add dst src) s = .next t ∧ OnlyRegWritten s t dst ∧
      (t.readReg dst).toInt = wrap32 ((operandValue s dst).toInt + (operandValue s src).toInt) ∧
      (t.readReg dst).toNat = ((operandValue s dst).toNat + (operandValue s src).toNat) % 2 ^ 32

/-- R132. -/
def Obligations.SubWritesWrappedDifference : Prop :=
  (∀ w f, f.opcode = 9 → selectInstr w f = .sub (regOf f.flg0 f.rn) (regOf f.flg1 f.rm)) ∧
    ∀ dst src s, ∃ t, exec (.sub dst src) s = .next t ∧ OnlyRegWritten s t dst ∧
      (t.readReg dst).toInt = wrap32 ((operandValue s dst).toInt - (operandValue s src).toInt) ∧
      (-2 ^ 31 ≤ (operandValue s dst).toInt - (operandValue s src).toInt →
        (operandValue s dst).toInt - (operandValue s src).toInt < 2 ^ 31 →
        ((t.readReg dst).getLsbD 31 = false ↔ (operandValue s src).toInt ≤ (operandValue s dst).toInt))

/-- LSL in range (44_arithmetic_shift.md section 3); that high bits are discarded is the spec's decision D6 (log 6). -/
def Obligations.LslShiftsLeftInRange : Prop :=
  (∀ w f, f.opcode = 10 → selectInstr w f = .lsl (regOf f.flg0 f.rn) (regOf f.flg1 f.rm)) ∧
    ∀ dst src s, 0 ≤ (operandValue s src).toInt → (operandValue s src).toInt ≤ 31 →
      ∃ t, exec (.lsl dst src) s = .next t ∧ OnlyRegWritten s t dst ∧
        (t.readReg dst).toInt = wrap32 ((operandValue s dst).toInt * 2 ^ (operandValue s src).toNat)

/-- LSR in range (44_arithmetic_shift.md section 3, the conflict C5 resolved for the arithmetic shift). -/
def Obligations.LsrShiftsRightArithmeticInRange : Prop :=
  (∀ w f, f.opcode = 11 → selectInstr w f = .lsr (regOf f.flg0 f.rn) (regOf f.flg1 f.rm)) ∧
    ∀ dst src s, 0 ≤ (operandValue s src).toInt → (operandValue s src).toInt ≤ 31 →
      ∃ t, exec (.lsr dst src) s = .next t ∧ OnlyRegWritten s t dst ∧
        (t.readReg dst).toInt = Int.fdiv (operandValue s dst).toInt (2 ^ (operandValue s src).toNat) ∧
        ∀ i, i < 32 → (t.readReg dst).getLsbD i =
          (operandValue s dst).getLsbD (if i + (operandValue s src).toNat < 32 then i + (operandValue s src).toNat else 31)

/-- The spec's decision D5: the free value lands in `dst`, nothing else happens (log 5). -/
def Obligations.ShiftOutOfRangeWritesFreeValue : Prop :=
  ∀ dst src s, ((operandValue s src).toInt < 0 ∨ 31 < (operandValue s src).toInt) →
    (∃ t, exec (.lsl dst src) s = .next t ∧ OnlyRegWritten s t dst ∧
      t.readReg dst = Config.shiftOor .lsl (operandValue s dst) (operandValue s src)) ∧
    ∃ t, exec (.lsr dst src) s = .next t ∧ OnlyRegWritten s t dst ∧
      t.readReg dst = Config.shiftOor .lsr (operandValue s dst) (operandValue s src)

/-- R145. -/
def Obligations.AndIsBitwise : Prop :=
  (∀ w f, f.opcode = 12 → selectInstr w f = .and (regOf f.flg0 f.rn) (regOf f.flg1 f.rm)) ∧
    ∀ dst src s, ∃ t, exec (.and dst src) s = .next t ∧ OnlyRegWritten s t dst ∧
      ∀ i, i < 32 → (t.readReg dst).getLsbD i =
        (Bool.and ((operandValue s dst).getLsbD i) ((operandValue s src).getLsbD i))

/-- R146. -/
def Obligations.OrrIsBitwise : Prop :=
  (∀ w f, f.opcode = 13 → selectInstr w f = .orr (regOf f.flg0 f.rn) (regOf f.flg1 f.rm)) ∧
    ∀ dst src s, ∃ t, exec (.orr dst src) s = .next t ∧ OnlyRegWritten s t dst ∧
      ∀ i, i < 32 → (t.readReg dst).getLsbD i =
        (Bool.or ((operandValue s dst).getLsbD i) ((operandValue s src).getLsbD i))

/-- R147. -/
def Obligations.XorIsBitwise : Prop :=
  (∀ w f, f.opcode = 14 → selectInstr w f = .xor (regOf f.flg0 f.rn) (regOf f.flg1 f.rm)) ∧
    ∀ dst src s, ∃ t, exec (.xor dst src) s = .next t ∧ OnlyRegWritten s t dst ∧
      ∀ i, i < 32 → (t.readReg dst).getLsbD i =
        (Bool.xor ((operandValue s dst).getLsbD i) ((operandValue s src).getLsbD i))

/-- R148. -/
def Obligations.NotComplementsDestination : Prop :=
  (∀ w f, f.opcode = 15 → selectInstr w f = .not (regOf f.flg0 f.rn)) ∧
    ∀ dst s, ∃ t, exec (.not dst) s = .next t ∧ OnlyRegWritten s t dst ∧
      (t.readReg dst).toInt = -(operandValue s dst).toInt - 1 ∧
      ∀ i, i < 32 → (t.readReg dst).getLsbD i = !(operandValue s dst).getLsbD i

/-- R160. -/
def Obligations.BraJumpsToLocation : Prop :=
  (∀ w f, f.opcode = 16 → selectInstr w f = .bra f.location) ∧
    ∀ location s, ∃ t, exec (.bra location) s = .next t ∧ OnlyRegWritten s t Reg.pc ∧ t.pc.toNat = location.toNat

/-- R161. -/
def Obligations.BrzBranchesOnZero : Prop :=
  (∀ w f, f.opcode = 18 → selectInstr w f = .brz (regOf f.flg0 f.rn) f.location) ∧
    ∀ dst location s, ∃ t, exec (.brz dst location) s = .next t ∧ OnlyRegWritten s t Reg.pc ∧
      ((operandValue s dst).toInt = 0 → t.pc.toNat = location.toNat) ∧
      ((operandValue s dst).toInt ≠ 0 → t.pc = pcAfterFetch s)

/-- R162. -/
def Obligations.BrpBranchesOnNonNegative : Prop :=
  (∀ w f, f.opcode = 19 → selectInstr w f = .brp (regOf f.flg0 f.rn) f.location) ∧
    ∀ dst location s, ∃ t, exec (.brp dst location) s = .next t ∧ OnlyRegWritten s t Reg.pc ∧
      (0 ≤ (operandValue s dst).toInt → t.pc.toNat = location.toNat) ∧
      ((operandValue s dst).toInt < 0 → t.pc = pcAfterFetch s)

/-- The machine has no error path. That a held INP (log 10) and a Halted engine (log 11) answer a next state is the model's
choice. -/
def Obligations.EveryStepAnswersNext : Prop :=
  (∀ (i : Instr) (s : State), ∃ t, exec i s = .next t) ∧ ∀ s, ∃ t, step s = .next t

/-- R28. -/
def Obligations.HaltedOnlyByHlt : Prop :=
  State.reset.run = .running ∧ (∀ (s : State) image t, s.launch image = .ok t → t.run = .running) ∧
    (∀ s t, s.run = .running → step s = .next t → (t.run = .halted ↔ decode s.fetchWord = .hlt)) ∧
    (∀ s t, s.run = .halted → step s = .next t → t = s) ∧ ∀ (s : State) vs, (s.supply vs).run = s.run

/-- The zero-filled tail is a field of HLT instructions (30_encoding.md section 3, marked as derived). -/
def Obligations.ZeroMemoryHalts : Prop :=
  ∀ s, s.run = .running → s.fetchWord = 0 → ∃ t, step s = .next t ∧ t.run = .halted ∧ RegsKept s t none ∧ MemKept s t

/-- R103. -/
def Obligations.MemoryChangedOnlyByStr : Prop :=
  ∀ s t, step s = .next t → (∀ dst ea, decode s.fetchWord ≠ .str dst ea) → t.mem = s.mem ∧ MemKept s t

/-- R44. -/
def Obligations.AddressesWrapAndNoAccessFails : Prop :=
  (∀ (s : State) location, (s.effAddr (.direct location)).toNat = location.toNat) ∧
    (∀ (s : State) r, ((s.effAddr (.indirect r)).toNat : Int) = (s.readReg r).toInt % 65536) ∧
    (∀ s : State, (s.fetchAddr.toNat : Int) = s.pc.toInt % 65536) ∧
    ∀ (m : Memory) a c v, (m.writeWord a v).readWord c = if c = a then v else m.readWord c

/-- Rule (a) of the memory order (20_memory.md section 4) for a store and the load right after it. -/
def Obligations.LoadReturnsLastStore : Prop :=
  ∀ s dst ea dst' ea', ∃ t u, exec (.str dst ea) s = .next t ∧ exec (.ldr dst' ea') t = .next u ∧
    u.readReg dst' = if addressOf t ea' = addressOf s ea then operandValue s dst
      else s.mem.readWord (BitVec.ofNat 16 (addressOf t ea'))

/-- Instruction-fetch coherence (20_memory.md section 4). -/
def Obligations.StoreSeenByNextFetch : Prop :=
  ∀ s dst ea, s.run = .running → decode s.fetchWord = .str dst ea →
    ∃ t, step s = .next t ∧ (t.fetchAddr.toNat = addressOf s ea → step t = exec (decode (operandValue s dst)) t)

/-- Column "writes `dst[Rn]`" of table R23, for all instructions at once. -/
def Obligations.OnlyDestinationRegisterChanges : Prop :=
  ∀ (i : Instr) (s t : State), exec i s = .next t → ∀ r, r ≠ Reg.pc → destination i ≠ some r → t.readReg r = s.readReg r

/-- The rule that lists every way the program counter changes is marked as derived by the spec. The held INP is log 10. -/
def Obligations.EveryWayThePcChanges : Prop :=
  ∀ s t, s.run = .running → step s = .next t →
    (∀ location, decode s.fetchWord = .bra location → t.pc.toNat = location.toNat) ∧
    (∀ dst location, decode s.fetchWord = .brz dst location →
      if operandValue s dst = 0 then t.pc.toNat = location.toNat else t.pc = pcAfterFetch s) ∧
    (∀ dst location, decode s.fetchWord = .brp dst location →
      if 0 ≤ (operandValue s dst).toInt then t.pc.toNat = location.toNat else t.pc = pcAfterFetch s) ∧
    (∀ dst, decode s.fetchWord = .inp dst → s.consoleIn = .empty → t = s) ∧
    ((∀ location, decode s.fetchWord ≠ .bra location) → (∀ dst location, decode s.fetchWord ≠ .brz dst location) →
      (∀ dst location, decode s.fetchWord ≠ .brp dst location) →
      (∀ dst, decode s.fetchWord = .inp dst → s.consoleIn ≠ .empty) →
      destination (decode s.fetchWord) ≠ some Reg.pc → t.pc = pcAfterFetch s)

/-- The instruction after the one at address 65535 is the one at address 0; both readings of the mask (log 2, log 3). -/
def Obligations.SequentialFetchWraps : Prop :=
  ∀ s t : State, t.pc = pcAfterFetch s → t.fetchAddr.toNat = (s.fetchAddr.toNat + 1) % 65536

/-- The exact condition that 10_state.md section 3 gives (marked as derived there) for the two readings of C1 to agree. -/
def Obligations.PcMaskReadingsAgree : Prop :=
  ∀ k s t, s.pcStoreMasked = false → Runs (fun u => u.pc.toNat < 65536) k s t →
    Runs (fun u => u.pc.toNat < 65536) k { s with pcStoreMasked := true } { t with pcStoreMasked := true }

/-- The parameter is fixed for a run. That it stands in the state is the model's choice (log 2). -/
def Obligations.PcParameterNeverChanges : Prop :=
  ∀ s t, step s = .next t → t.pcStoreMasked = s.pcStoreMasked

/-- "A program ... cannot observe the two output sequences at all" (10_state.md section 4; the sequences are decisions D9 and
D10, log 9, log 10). -/
def Obligations.OutputsAreUnobservable : Prop :=
  ∀ k s t past, Reaches k s t → ∃ new, t.events = s.events ++ new ∧
    Reaches k { s with events := past } { t with events := past ++ new }

/-- "A program can observe the console input only through INP" (10_state.md section 4; the sequence is decision D10, log 10). -/
def Obligations.InputObservedOnlyByInp : Prop :=
  ∀ s t xs, (∀ dst, decode s.fetchWord ≠ .inp dst) → step s = .next t →
    t.consoleIn = s.consoleIn ∧ step { s with consoleIn := xs } = .next { t with consoleIn := xs }

/-- Consecutive INP instructions receive consecutive values in program order (42_io.md). The input as a sequence is decision D10
(log 10), its form as data log 19; the record of reads in `events` is the model's own (log 9). -/
def Obligations.InputConsumedInOrder : Prop :=
  ∀ k s t, Reaches k s t → ∃ new, t.events = s.events ++ new ∧
    ∀ i, s.consoleIn.valueAt i =
      if i < (new.filterMap readValue).length then (new.filterMap readValue)[i]?
      else t.consoleIn.valueAt (i - (new.filterMap readValue).length)

/-- The launch premise `Input(xs)`, "finite or infinite", carried along a run. The input as a sequence is decision D10 (log 10),
its form as data log 19; the record of reads in `events` is the model's own (log 9). -/
def Obligations.InputPremiseFollowsTheRun : Prop :=
  ∀ k s t xs, Reaches k s t → Input xs s → ∃ n new, n ≤ k ∧ t.events = s.events ++ new ∧
    new.filterMap readValue = xs.first n ∧ (xs.first n).length = n ∧ Input (xs.drop n) t

/-- An infinite console input (10_state.md section 4, 70_reset_and_hazards.md section 1) is no more than all its finite
beginnings, so that its form as data (log 19) adds nothing; and the wait of INP, which needs an empty input, never happens. -/
def Obligations.InfiniteInputActsAsItsPrefixes : Prop :=
  ∀ s xs, Input (.infinite xs) s →
    (∀ k t, Reaches k s t → ∃ rest, Reaches k { s with consoleIn := .ofList ((List.range k).map xs) }
      { t with consoleIn := .ofList rest }) ∧
    ∀ dst, s.run = .running → decode s.fetchWord = .inp dst → ∃ t, step s = .next t ∧ t.readReg dst = xs 0 ∧
      Input (.infinite fun i => xs (i + 1)) t ∧ RegsKept s t (some dst) ∧ MemKept s t ∧ t.run = .running

/-- The order of console events (42_io.md section 3, marked as derived; the separate channel is decision D9, log 9). -/
def Obligations.OneEventPerInstruction : Prop :=
  ∀ s t, s.run = .running → step s = .next t → t.events = s.events ++ eventsOf s

/-- Diagnostics come from the 14 unassigned opcodes only (60_exceptions.md section 1; the channel is decision D9, log 9). -/
def Obligations.RecognizedRunsEmitNoDiagnostic : Prop :=
  ∀ k s t, Runs Recognized k s t → NoDiagnostic s t

/-- The image load and the launch premises; the 31 registers by decision D4 (log 4), the reset by D12 (log 13). -/
def Obligations.LaunchMeetsPremises : Prop :=
  (∀ (s : State) image, image.length ≤ 65536 → ∃ t, s.launch image = .ok t ∧ ImageFits image t ∧ PcZero t ∧ Running t ∧
      RegsZero t ∧ OutputsEmpty t ∧ (∀ xs, Input xs s → Input xs t) ∧ CanonicalMem t) ∧
    ∀ (s : State) (image : List Word), 65536 < image.length → s.launch image = .error .tooLarge

/-- Decision D12: a reset discards registers, memory and output sequences (log 13). -/
def Obligations.LaunchDiscardsTheRun : Prop :=
  ∀ (s s' : State) image, s.consoleIn = s'.consoleIn → s.pcStoreMasked = s'.pcStoreMasked → s.launch image = s'.launch image

/-- Decision D8 (log 8). -/
def Obligations.ImageBytesAreLittleEndian : Prop :=
  imageWords [] = .ok [] ∧
    (∀ (b0 b1 b2 b3 : Byte) rest ws, imageWords rest = .ok ws → imageWords (b0 :: b1 :: b2 :: b3 :: rest) =
      .ok (BitVec.ofNat 32 (b0.toNat + 256 * b1.toNat + 65536 * b2.toNat + 16777216 * b3.toNat) :: ws)) ∧
    ∀ bs : List Byte, bs.length % 4 ≠ 0 → imageWords bs = .error .partialWord

/-- Corner case (d) of SUB (44_arithmetic_shift.md section 2). -/
def Obligations.SubThenBrpComparesSigned : Prop :=
  ∀ dst src location s, dst ≠ Reg.pc →
    -2 ^ 31 ≤ (s.readReg dst).toInt - (operandValue s src).toInt →
    (s.readReg dst).toInt - (operandValue s src).toInt < 2 ^ 31 →
    ∃ t u, exec (.sub dst src) s = .next t ∧ exec (.brp dst location) t = .next u ∧
      if (operandValue s src).toInt ≤ (s.readReg dst).toInt then u.pc.toNat = location.toNat else u.pc = pcAfterFetch t
end

