-- ==== Sys2Proof/Laws/Console.lean ====
section
/-! SUPPORT. The console input as a sequence, finite or infinite: what taking its first value and supplying more can do, said
through its values (`ConsoleInput.valueAt`). -/

namespace Sys2Proof.Machine

/-! ### The values of a console input -/

@[simp] theorem ConsoleInput.valueAt_empty (i : Nat) : ConsoleInput.empty.valueAt i = none := rfl

@[simp] theorem ConsoleInput.valueAt_ofList (vs : List Word) (i : Nat) :
    (ConsoleInput.ofList vs).valueAt i = vs[i]? := by
  by_cases h : i < vs.length
  · simp [ConsoleInput.valueAt, ConsoleInput.ofList, h]
  · simp [ConsoleInput.valueAt, ConsoleInput.ofList, h]

@[simp] theorem ConsoleInput.valueAt_cons_zero (v : Word) (rest : List Word) (tail : InputTail) :
    ConsoleInput.valueAt ⟨v :: rest, tail⟩ 0 = some v := rfl

@[simp] theorem ConsoleInput.valueAt_cons_succ (v : Word) (rest : List Word) (tail : InputTail) (i : Nat) :
    ConsoleInput.valueAt ⟨v :: rest, tail⟩ (i + 1) = ConsoleInput.valueAt ⟨rest, tail⟩ i := by
  simp [ConsoleInput.valueAt]

@[simp] theorem ConsoleInput.valueAt_endless (source position i : Nat) :
    ConsoleInput.valueAt ⟨[], .endless source position⟩ i = some (Config.endlessInput source (position + i)) := rfl

/-! ### Taking the first value -/

/-- There is no first value exactly when the input is empty. -/
theorem ConsoleInput.next_eq_none (c : ConsoleInput) : c.next = none ↔ c = .empty := by
  rcases c with ⟨_ | ⟨v, rest⟩, _ | ⟨source, position⟩⟩ <;> simp [ConsoleInput.next, ConsoleInput.empty, ConsoleInput.ofList]

/-- What taking the first value can do: it is value number 0, and the others move up by one. -/
theorem ConsoleInput.next_cases (c rest : ConsoleInput) (v : Word) (h : c.next = some (v, rest)) :
    c.valueAt 0 = some v ∧ ∀ i, rest.valueAt i = c.valueAt (i + 1) := by
  rcases c with ⟨_ | ⟨w, ws⟩, _ | ⟨source, position⟩⟩
  · cases h
  · cases h
    exact ⟨rfl, fun i => by simp [Nat.add_assoc, Nat.add_comm 1 i]⟩
  · cases h
    exact ⟨rfl, fun i => by simp⟩
  · cases h
    exact ⟨rfl, fun i => by simp⟩

/-- A value number 0 is there to be taken. -/
theorem ConsoleInput.next_of_valueAt (c : ConsoleInput) (v : Word) (h : c.valueAt 0 = some v) :
    ∃ rest, c.next = some (v, rest) := by
  cases hn : c.next with
  | none =>
    rw [(c.next_eq_none).mp hn] at h
    cases h
  | some p =>
    obtain ⟨w, rest⟩ := p
    have := (c.next_cases rest w hn).1
    rw [h] at this
    cases this
    exact ⟨rest, rfl⟩

/-- An input without a value number 0 is empty. -/
theorem ConsoleInput.valueAt_zero_eq_none (c : ConsoleInput) : c.valueAt 0 = none ↔ c = .empty := by
  refine ⟨fun h => ?_, fun h => h ▸ rfl⟩
  rw [← c.next_eq_none]
  cases hn : c.next with
  | none => rfl
  | some p => rw [(c.next_cases p.2 p.1 hn).1] at h; cases h

/-! ### Supplying more -/

/-- A finite input followed by more. -/
theorem ConsoleInput.append_ofList (vs : List Word) (more : ConsoleInput) :
    (ConsoleInput.ofList vs).append more = ⟨vs ++ more.given, more.tail⟩ := rfl

/-- After an infinite input nothing comes. -/
theorem ConsoleInput.append_endless (vs : List Word) (source position : Nat) (more : ConsoleInput) :
    ConsoleInput.append ⟨vs, .endless source position⟩ more = ⟨vs, .endless source position⟩ := rfl

/-- Supplied to an empty input, more is the input. -/
@[simp] theorem ConsoleInput.append_empty_left (more : ConsoleInput) : ConsoleInput.empty.append more = more := rfl

/-! ### The premise `Input(xs)` (R205) -/

/-- A finite premise says which data the console input is. -/
theorem input_finite_iff (xs : List Word) (s : State) : Input (.finite xs) s ↔ s.consoleIn = .ofList xs := by
  constructor
  · intro h
    rcases hc : s.consoleIn with ⟨vs, tail⟩
    simp only [Input, hc] at h
    cases tail with
    | ends =>
      have : vs = xs := List.ext_getElem? fun i => by
        rw [← ConsoleInput.valueAt_ofList]
        exact h i
      rw [this]
      rfl
    | endless source position =>
      have hs := h (xs.length + vs.length)
      simp [ConsoleInput.valueAt, InputSeq.valueAt] at hs
  · intro h i
    rw [h]
    exact ConsoleInput.valueAt_ofList xs i

/-- A console input that goes on for ever meets an infinite premise. -/
theorem input_infinite_endless (s : State) (source position : Nat)
    (h : s.consoleIn = ⟨[], .endless source position⟩) :
    Input (.infinite fun i => Config.endlessInput source (position + i)) s := by
  intro i
  rw [h]
  rfl

end Sys2Proof.Machine
end

