-- ==== Sys2Proof/Laws/Encoding.lean ====
section
/-! SUPPORT. The numeric value of an encoded word, and its opcode field (30_encoding.md R60, R63). -/
namespace Sys2Proof.Laws

/-- The value of an encoded word is the sum of R63; the fields tile the word, so nothing wraps. -/
theorem toNat_encodeFields (f : Fields) : (encodeFields f).toNat =
    f.flg0.toNat * 2147483648 + f.flg1.toNat * 1073741824 + f.flg2.toNat * 536870912 + f.opcode.toNat * 16777216
      + f.rn.toNat * 1048576 + f.rm.toNat * 65536 + f.location.toNat := by
  have h0 : f.flg0.toNat ≤ 1 := Bool.toNat_le f.flg0
  have h1 : f.flg1.toNat ≤ 1 := Bool.toNat_le f.flg1
  have h2 : f.flg2.toNat ≤ 1 := Bool.toNat_le f.flg2
  have ho := f.opcode.isLt
  have hn := f.rn.isLt
  have hm := f.rm.isLt
  have hl := f.location.isLt
  rw [encodeFields, BitVec.toNat_ofNat]
  rw [show flg0Bit = 31 from rfl, show flg1Bit = 30 from rfl, show flg2Bit = 29 from rfl]
  norm_num
  omega

/-- Bits 28..24 of an encoded field record are its opcode (R60, R63). -/
theorem opcodeField_encodeFields (f : Fields) : opcodeField (encodeFields f) = f.opcode := by
  apply BitVec.eq_of_toNat_eq
  have h0 : f.flg0.toNat ≤ 1 := Bool.toNat_le f.flg0
  have h1 : f.flg1.toNat ≤ 1 := Bool.toNat_le f.flg1
  have h2 : f.flg2.toNat ≤ 1 := Bool.toNat_le f.flg2
  have ho := f.opcode.isLt
  have hn := f.rn.isLt
  have hm := f.rm.isLt
  have hl := f.location.isLt
  rw [opcodeField, BitVec.extractLsb'_toNat, toNat_encodeFields, Nat.shiftRight_eq_div_pow]
  omega

end Sys2Proof.Laws
end

