-- ==== Sys2Proof/Laws/Memory.lean ====
section
/-! SUPPORT. What the memory operations do: reads after writes, and the canonical form (20_memory.md R44, R45, R50). -/

namespace Sys2Proof.Machine

/-! ### Bytes -/

/-- Erasing a byte, cell by cell. -/
theorem Memory.erase_cons (k : Nat) (v : Byte) (rest : Memory) (b : Nat) :
    Memory.erase ((k, v) :: rest) b = if k = b then Memory.erase rest b else (k, v) :: Memory.erase rest b := by
  by_cases hk : k = b <;> simp [Memory.erase, hk]

/-- An erased byte reads as an unlisted one; every other byte is as before. -/
theorem Memory.readByte_erase (m : Memory) (b c : Nat) :
    (m.erase b).readByte c = if c = b then Memory.unlisted else m.readByte c := by
  induction m with
  | nil => simp [Memory.erase, Memory.readByte]
  | cons p rest ih =>
    obtain ⟨k, v⟩ := p
    rw [Memory.erase_cons]
    split
    · rename_i hk
      rw [ih]
      by_cases hc : c = b
      · simp [hc]
      · simp [Memory.readByte, hc, show k ≠ c by omega]
    · rename_i hk
      simp only [Memory.readByte, ih]
      by_cases hc : k = c
      · simp [hc, show c ≠ b by omega]
      · simp [hc]

/-- An inserted byte reads as itself where it was not listed; every other byte is as before. -/
theorem Memory.readByte_insert (m : Memory) (b c : Nat) (v : Byte) (h : ∀ p ∈ m, p.1 ≠ b) :
    (m.insert b v).readByte c = if c = b then v else m.readByte c := by
  induction m with
  | nil => simp [Memory.insert, Memory.readByte, eq_comm]
  | cons p rest ih =>
    obtain ⟨k, x⟩ := p
    have hk : k ≠ b := h (k, x) (by simp)
    have ih' := ih fun q hq => h q (by simp [hq])
    unfold Memory.insert
    split
    · simp [Memory.readByte, eq_comm]
    · by_cases hc : k = c
      · subst hc
        simp [Memory.readByte, hk]
      · simp [Memory.readByte, hc, ih']

/-- No listed byte of `m.erase b` is byte `b`. -/
theorem Memory.erase_ne (m : Memory) (b : Nat) : ∀ p ∈ m.erase b, p.1 ≠ b := by
  intro p hp
  simpa using (List.mem_filter.mp hp).2

/-- `readByte` after `writeByte`, said once. -/
theorem Memory.readByte_writeByte (m : Memory) (b c : Nat) (v : Byte) :
    (m.writeByte b v).readByte c = if c = b then v else m.readByte c := by
  unfold Memory.writeByte
  split
  · rename_i h
    rw [Memory.readByte_erase, h]
  · rw [Memory.readByte_insert _ _ _ _ (m.erase_ne b), Memory.readByte_erase]
    split <;> rfl

/-! ### Words -/

/-- Every byte after a word is written: the four bytes of the word, and every other byte as before. -/
theorem Memory.readByte_writeWord (m : Memory) (a : Addr) (v : Word) (b : Nat) :
    (m.writeWord a v).readByte b =
      if b = 4 * a.toNat + 3 then v.extractLsb' 24 8
      else if b = 4 * a.toNat + 2 then v.extractLsb' 16 8
      else if b = 4 * a.toNat + 1 then v.extractLsb' 8 8
      else if b = 4 * a.toNat then v.extractLsb' 0 8
      else m.readByte b := by
  simp only [Memory.writeWord, Memory.readByte_writeByte]

/-- A word is its four bytes. -/
theorem Memory.word_of_bytes (v : Word) :
    v.extractLsb' 24 8 ++ v.extractLsb' 16 8 ++ v.extractLsb' 8 8 ++ v.extractLsb' 0 8 = v := by
  apply BitVec.eq_of_getLsbD_eq
  intro i hi
  simp only [BitVec.getLsbD_append, BitVec.getLsbD_extractLsb']
  by_cases h1 : i < 8
  · simp [h1]
  · by_cases h2 : i - 8 < 8
    · simp [h1, h2, show 8 + (i - 8) = i by omega]
    · by_cases h3 : i - 8 - 8 < 8
      · simp [h1, h2, h3, show 16 + (i - 8 - 8) = i by omega]
      · simp [h1, h2, h3, show 24 + (i - 8 - 8 - 8) = i by omega, show i - 8 - 8 - 8 < 8 by omega]

/-- `readWord` after `writeWord`, said once: the word written holds the value, every other word is as before (R45). -/
theorem Memory.readWord_writeWord (m : Memory) (a c : Addr) (v : Word) :
    (m.writeWord a v).readWord c = if c = a then v else m.readWord c := by
  by_cases h : c = a
  · subst h
    simp [Memory.readWord, Memory.readByte_writeWord, Memory.word_of_bytes]
  · have hn : c.toNat ≠ a.toNat := fun e => h (BitVec.eq_of_toNat_eq e)
    have key : ∀ i j, i < 4 → j < 4 → 4 * c.toNat + i ≠ 4 * a.toNat + j := fun i j hi hj => by omega
    have k0 : ∀ j, j < 4 → 4 * c.toNat ≠ 4 * a.toNat + j := fun j hj => by omega
    have k1 : ∀ i, i < 4 → 4 * c.toNat + i ≠ 4 * a.toNat := fun i hi => by omega
    simp only [Memory.readWord, Memory.readByte_writeWord, if_neg h]
    simp [key, k0, k1, hn]

/-! ### The canonical form -/

/-- The canonical form above a bound holds above a lower bound. -/
theorem Memory.wfFrom_mono {lo hi : Nat} (h : lo ≤ hi) {m : Memory} (hm : Memory.wfFrom hi m = true) :
    Memory.wfFrom lo m = true := by
  cases m with
  | nil => rfl
  | cons p rest =>
    obtain ⟨k, v⟩ := p
    simp only [Memory.wfFrom, Bool.and_eq_true, decide_eq_true_eq] at hm ⊢
    exact ⟨⟨⟨by omega, hm.1.1.2⟩, hm.1.2⟩, hm.2⟩

/-- Erasing a byte keeps the canonical form. -/
theorem Memory.wfFrom_erase {m : Memory} (b : Nat) {lo : Nat} (hm : Memory.wfFrom lo m = true) :
    Memory.wfFrom lo (m.erase b) = true := by
  induction m generalizing lo with
  | nil => rfl
  | cons p rest ih =>
    obtain ⟨k, v⟩ := p
    simp only [Memory.wfFrom, Bool.and_eq_true, decide_eq_true_eq] at hm
    rw [Memory.erase_cons]
    split
    · exact Memory.wfFrom_mono (by omega) (ih hm.2)
    · simp only [Memory.wfFrom, Bool.and_eq_true, decide_eq_true_eq]
      exact ⟨hm.1, ih hm.2⟩

/-- Inserting a byte of memory that is not listed and does not read as an unlisted one keeps the canonical form. -/
theorem Memory.wfFrom_insert {m : Memory} {b : Nat} {v : Byte} {lo : Nat} (hlo : lo ≤ b) (hb : b < Memory.size)
    (hv : (v != Memory.unlisted) = true) (hne : ∀ p ∈ m, p.1 ≠ b) (hm : Memory.wfFrom lo m = true) :
    Memory.wfFrom lo (m.insert b v) = true := by
  induction m generalizing lo with
  | nil => simp [Memory.insert, Memory.wfFrom, hlo, hb, hv]
  | cons p rest ih =>
    obtain ⟨k, x⟩ := p
    have hk : k ≠ b := hne (k, x) (by simp)
    simp only [Memory.wfFrom, Bool.and_eq_true, decide_eq_true_eq] at hm
    unfold Memory.insert
    split
    · rename_i hlt
      simp only [Memory.wfFrom, Bool.and_eq_true, decide_eq_true_eq]
      exact ⟨⟨⟨hlo, hb⟩, hv⟩, ⟨⟨⟨by omega, hm.1.1.2⟩, hm.1.2⟩, hm.2⟩⟩
    · rename_i hlt
      simp only [Memory.wfFrom, Bool.and_eq_true, decide_eq_true_eq]
      exact ⟨hm.1, ih (by omega) (fun q hq => hne q (by simp [hq])) hm.2⟩

/-- Writing a byte of memory keeps the canonical form. -/
theorem Memory.wf_writeByte {m : Memory} {b : Nat} (v : Byte) (hb : b < Memory.size) (hm : m.wf = true) :
    (m.writeByte b v).wf = true := by
  unfold Memory.writeByte
  split
  · exact Memory.wfFrom_erase b hm
  · rename_i hv
    exact Memory.wfFrom_insert (Nat.zero_le b) hb (by simpa using hv) (m.erase_ne b) (Memory.wfFrom_erase b hm)

/-- Writing a word keeps the canonical form. -/
theorem Memory.wf_writeWord {m : Memory} (a : Addr) (v : Word) (hm : m.wf = true) : (m.writeWord a v).wf = true := by
  have ha : a.toNat < 65536 := a.isLt
  have size : Memory.size = 262144 := rfl
  unfold Memory.writeWord
  exact Memory.wf_writeByte _ (by omega) (Memory.wf_writeByte _ (by omega) (Memory.wf_writeByte _ (by omega)
    (Memory.wf_writeByte _ (by omega) hm)))

/-- Placing an image keeps the canonical form. -/
theorem Memory.wf_place {m : Memory} (a : Nat) (image : List Word) (hm : m.wf = true) :
    (m.place a image).wf = true := by
  induction image generalizing m a with
  | nil => exact hm
  | cons w rest ih => exact ih (a + 1) (Memory.wf_writeWord _ w hm)

end Sys2Proof.Machine
end

