-- ==== Sys2Proof/Laws/State.lean ====
section
/-! SUPPORT. One lemma for each field and each named update of the state, so that no proof unfolds a record update. -/

namespace Sys2Proof.Machine

section
variable (s : State)

/-! ### storeWord -/

@[simp] theorem State.storeWord_general (a : Addr) (v : Word) : (s.storeWord a v).general = s.general := rfl
@[simp] theorem State.storeWord_system (a : Addr) (v : Word) : (s.storeWord a v).system = s.system := rfl
@[simp] theorem State.storeWord_mem (a : Addr) (v : Word) : (s.storeWord a v).mem = s.mem.writeWord a v := rfl
@[simp] theorem State.storeWord_run (a : Addr) (v : Word) : (s.storeWord a v).run = s.run := rfl
@[simp] theorem State.storeWord_consoleIn (a : Addr) (v : Word) : (s.storeWord a v).consoleIn = s.consoleIn := rfl
@[simp] theorem State.storeWord_events (a : Addr) (v : Word) : (s.storeWord a v).events = s.events := rfl
@[simp] theorem State.storeWord_pcStoreMasked (a : Addr) (v : Word) : (s.storeWord a v).pcStoreMasked = s.pcStoreMasked := rfl

/-! ### writeReg -/

@[simp] theorem State.writeReg_mem (r : Reg) (v : Word) : (s.writeReg r v).mem = s.mem := rfl
@[simp] theorem State.writeReg_run (r : Reg) (v : Word) : (s.writeReg r v).run = s.run := rfl
@[simp] theorem State.writeReg_consoleIn (r : Reg) (v : Word) : (s.writeReg r v).consoleIn = s.consoleIn := rfl
@[simp] theorem State.writeReg_events (r : Reg) (v : Word) : (s.writeReg r v).events = s.events := rfl
@[simp] theorem State.writeReg_pcStoreMasked (r : Reg) (v : Word) : (s.writeReg r v).pcStoreMasked = s.pcStoreMasked := rfl

/-! ### setPc -/

@[simp] theorem State.setPc_general (v : Word) : (s.setPc v).general = s.general := rfl
@[simp] theorem State.setPc_mem (v : Word) : (s.setPc v).mem = s.mem := rfl
@[simp] theorem State.setPc_run (v : Word) : (s.setPc v).run = s.run := rfl
@[simp] theorem State.setPc_consoleIn (v : Word) : (s.setPc v).consoleIn = s.consoleIn := rfl
@[simp] theorem State.setPc_events (v : Word) : (s.setPc v).events = s.events := rfl
@[simp] theorem State.setPc_pcStoreMasked (v : Word) : (s.setPc v).pcStoreMasked = s.pcStoreMasked := rfl

/-! ### advancePc -/

@[simp] theorem State.advancePc_general : (s.advancePc).general = s.general := rfl
@[simp] theorem State.advancePc_mem : (s.advancePc).mem = s.mem := rfl
@[simp] theorem State.advancePc_run : (s.advancePc).run = s.run := rfl
@[simp] theorem State.advancePc_consoleIn : (s.advancePc).consoleIn = s.consoleIn := rfl
@[simp] theorem State.advancePc_events : (s.advancePc).events = s.events := rfl
@[simp] theorem State.advancePc_pcStoreMasked : (s.advancePc).pcStoreMasked = s.pcStoreMasked := rfl

/-! ### halt -/

@[simp] theorem State.halt_general : (s.halt).general = s.general := rfl
@[simp] theorem State.halt_system : (s.halt).system = s.system := rfl
@[simp] theorem State.halt_mem : (s.halt).mem = s.mem := rfl
@[simp] theorem State.halt_run : (s.halt).run = .halted := rfl
@[simp] theorem State.halt_consoleIn : (s.halt).consoleIn = s.consoleIn := rfl
@[simp] theorem State.halt_events : (s.halt).events = s.events := rfl
@[simp] theorem State.halt_pcStoreMasked : (s.halt).pcStoreMasked = s.pcStoreMasked := rfl

/-! ### emit -/

@[simp] theorem State.emit_general (e : Event) : (s.emit e).general = s.general := rfl
@[simp] theorem State.emit_system (e : Event) : (s.emit e).system = s.system := rfl
@[simp] theorem State.emit_mem (e : Event) : (s.emit e).mem = s.mem := rfl
@[simp] theorem State.emit_run (e : Event) : (s.emit e).run = s.run := rfl
@[simp] theorem State.emit_consoleIn (e : Event) : (s.emit e).consoleIn = s.consoleIn := rfl
@[simp] theorem State.emit_events (e : Event) : (s.emit e).events = s.events ++ [e] := rfl
@[simp] theorem State.emit_pcStoreMasked (e : Event) : (s.emit e).pcStoreMasked = s.pcStoreMasked := rfl

/-! ### consoleWrite -/

@[simp] theorem State.consoleWrite_general (v : Word) : (s.consoleWrite v).general = s.general := rfl
@[simp] theorem State.consoleWrite_system (v : Word) : (s.consoleWrite v).system = s.system := rfl
@[simp] theorem State.consoleWrite_mem (v : Word) : (s.consoleWrite v).mem = s.mem := rfl
@[simp] theorem State.consoleWrite_run (v : Word) : (s.consoleWrite v).run = s.run := rfl
@[simp] theorem State.consoleWrite_consoleIn (v : Word) : (s.consoleWrite v).consoleIn = s.consoleIn := rfl
@[simp] theorem State.consoleWrite_events (v : Word) : (s.consoleWrite v).events = s.events ++ [.wrote v] := rfl
@[simp] theorem State.consoleWrite_pcStoreMasked (v : Word) : (s.consoleWrite v).pcStoreMasked = s.pcStoreMasked := rfl

/-! ### diag -/

@[simp] theorem State.diag_general (w : Word) : (s.diag w).general = s.general := rfl
@[simp] theorem State.diag_system (w : Word) : (s.diag w).system = s.system := rfl
@[simp] theorem State.diag_mem (w : Word) : (s.diag w).mem = s.mem := rfl
@[simp] theorem State.diag_run (w : Word) : (s.diag w).run = s.run := rfl
@[simp] theorem State.diag_consoleIn (w : Word) : (s.diag w).consoleIn = s.consoleIn := rfl
@[simp] theorem State.diag_events (w : Word) : (s.diag w).events = s.events ++ [.diag w] := rfl
@[simp] theorem State.diag_pcStoreMasked (w : Word) : (s.diag w).pcStoreMasked = s.pcStoreMasked := rfl

/-! ### withConsoleIn -/

@[simp] theorem State.withConsoleIn_general (c : ConsoleInput) : (s.withConsoleIn c).general = s.general := rfl
@[simp] theorem State.withConsoleIn_system (c : ConsoleInput) : (s.withConsoleIn c).system = s.system := rfl
@[simp] theorem State.withConsoleIn_mem (c : ConsoleInput) : (s.withConsoleIn c).mem = s.mem := rfl
@[simp] theorem State.withConsoleIn_run (c : ConsoleInput) : (s.withConsoleIn c).run = s.run := rfl
@[simp] theorem State.withConsoleIn_consoleIn (c : ConsoleInput) : (s.withConsoleIn c).consoleIn = c := rfl
@[simp] theorem State.withConsoleIn_events (c : ConsoleInput) : (s.withConsoleIn c).events = s.events := rfl
@[simp] theorem State.withConsoleIn_pcStoreMasked (c : ConsoleInput) : (s.withConsoleIn c).pcStoreMasked = s.pcStoreMasked := rfl

/-! ### supply -/

@[simp] theorem State.supply_general (c : ConsoleInput) : (s.supply c).general = s.general := rfl
@[simp] theorem State.supply_system (c : ConsoleInput) : (s.supply c).system = s.system := rfl
@[simp] theorem State.supply_mem (c : ConsoleInput) : (s.supply c).mem = s.mem := rfl
@[simp] theorem State.supply_run (c : ConsoleInput) : (s.supply c).run = s.run := rfl
@[simp] theorem State.supply_consoleIn (c : ConsoleInput) : (s.supply c).consoleIn = s.consoleIn.append c := rfl
@[simp] theorem State.supply_events (c : ConsoleInput) : (s.supply c).events = s.events := rfl
@[simp] theorem State.supply_pcStoreMasked (c : ConsoleInput) : (s.supply c).pcStoreMasked = s.pcStoreMasked := rfl

end

/-! ### the views of the events -/

/-- An exchange adds its value to the console output if it is a write. -/
@[simp] theorem State.consoleOut_emit_wrote (s : State) (v : Word) :
    (s.emit (.wrote v)).consoleOut = s.consoleOut ++ [v] := by
  simp [State.consoleOut]

/-- A console write adds nothing to the diagnostic channel. -/
@[simp] theorem State.diagnostics_emit_wrote (s : State) (v : Word) :
    (s.emit (.wrote v)).diagnostics = s.diagnostics := by
  simp [State.diagnostics]

/-- A diagnostic adds its word to the diagnostic channel. -/
@[simp] theorem State.diagnostics_emit_diag (s : State) (w : Word) :
    (s.emit (.diag w)).diagnostics = s.diagnostics ++ [w] := by
  simp [State.diagnostics]

/-- A diagnostic adds nothing to the console output. -/
@[simp] theorem State.consoleOut_emit_diag (s : State) (w : Word) :
    (s.emit (.diag w)).consoleOut = s.consoleOut := by
  simp [State.consoleOut]

/-- A console read adds nothing to the console output. -/
@[simp] theorem State.consoleOut_emit_read (s : State) (v : Word) :
    (s.emit (.read v)).consoleOut = s.consoleOut := by
  simp [State.consoleOut]

/-- A console read adds nothing to the diagnostic channel. -/
@[simp] theorem State.diagnostics_emit_read (s : State) (v : Word) :
    (s.emit (.read v)).diagnostics = s.diagnostics := by
  simp [State.diagnostics]

end Sys2Proof.Machine
end

