-- ==== Sys2Proof/Laws/Registers.lean ====
section
/-! SUPPORT. What the register operations do (10_state.md R21, R22, R24; 40_cycle_hlt_unrecognized.md R80). -/

namespace Sys2Proof.Machine

/-- `readReg` after `writeReg`, said once: the written register holds the value, every other register is as before; the
banks are separate storage (R22). -/
theorem State.readReg_writeReg (s : State) (r q : Reg) (v : Word) :
    (s.writeReg r v).readReg q = if q = r then v else s.readReg q := by
  obtain ⟨rb, ri⟩ := r
  obtain ⟨qb, qi⟩ := q
  cases rb <;> cases qb <;>
    simp [State.readReg, State.writeReg, Vector.get_eq_getElem, Vector.getElem_set, Fin.ext_iff, eq_comm]

/-- The written register holds the value. -/
@[simp] theorem State.readReg_writeReg_same (s : State) (r : Reg) (v : Word) :
    (s.writeReg r v).readReg r = v := by
  simp [State.readReg_writeReg]

/-- Every other register is as before. -/
theorem State.readReg_writeReg_other (s : State) (r q : Reg) (v : Word) (h : q ≠ r) :
    (s.writeReg r v).readReg q = s.readReg q := by
  simp [State.readReg_writeReg, h]

/-- Registers do not depend on memory. -/
@[simp] theorem State.readReg_storeWord (s : State) (a : Addr) (v : Word) (q : Reg) :
    (s.storeWord a v).readReg q = s.readReg q := rfl

/-- Registers do not depend on the run state. -/
@[simp] theorem State.readReg_halt (s : State) (q : Reg) : s.halt.readReg q = s.readReg q := rfl

/-- Registers do not depend on the exchanges with the environment. -/
@[simp] theorem State.readReg_emit (s : State) (e : Event) (q : Reg) : (s.emit e).readReg q = s.readReg q := rfl

/-- Registers do not depend on what is written to the console. -/
@[simp] theorem State.readReg_consoleWrite (s : State) (v : Word) (q : Reg) :
    (s.consoleWrite v).readReg q = s.readReg q := rfl

/-- Registers do not depend on the diagnostics. -/
@[simp] theorem State.readReg_diag (s : State) (w : Word) (q : Reg) : (s.diag w).readReg q = s.readReg q := rfl

/-- Registers do not depend on the console input. -/
@[simp] theorem State.readReg_withConsoleIn (s : State) (c : ConsoleInput) (q : Reg) :
    (s.withConsoleIn c).readReg q = s.readReg q := rfl

/-- Registers do not depend on the values the environment supplies. -/
@[simp] theorem State.readReg_supply (s : State) (c : ConsoleInput) (q : Reg) :
    (s.supply c).readReg q = s.readReg q := rfl

/-- The fetch phase's increment writes the program counter only (R80). -/
theorem State.readReg_advancePc (s : State) (q : Reg) :
    s.advancePc.readReg q =
      if q = Reg.pc then (if s.pcStoreMasked then zext32 (low16 s.pc) else s.pc) + 1 else s.readReg q := by
  simp only [State.advancePc, State.setPc, State.readReg_writeReg]

end Sys2Proof.Machine
end

