-- ==== Sys2Proof/Laws/Exec.lean ====
section
/-! SUPPORT. What each shared operation of the meanings can do, said once (Machine/Operands.lean), and how the model's own
formulas agree with the rules' formulas of Safety.lean. -/

namespace Sys2Proof.Machine

/-! ### Conversions and the fetch phase -/

/-- `low16` is the value modulo 65536 (R8). -/
theorem toNat_low16 (v : Word) : (low16 v).toNat = v.toNat % 65536 := by
  simp [low16, BitVec.extractLsb'_toNat]

/-- `zext_32` keeps the numeric value (R8). -/
theorem toNat_zext32 (v : BitVec 16) : (zext32 v).toNat = v.toNat := by
  have := v.isLt
  simp [zext32]
  omega

/-- The fetch phase leaves the value of R26 in the program counter, under both readings of the mask. -/
theorem State.pc_advancePc (s : State) : s.advancePc.pc = pcAfterFetch s := by
  have h : s.advancePc.pc = (if s.pcStoreMasked then zext32 (low16 s.pc) else s.pc) + 1 := by
    simp [State.pc, State.readReg_advancePc]
  rw [h, pcAfterFetch]
  cases s.pcStoreMasked with
  | true =>
    apply BitVec.eq_of_toNat_eq
    simp [BitVec.toNat_add, toNat_zext32, toNat_low16]
  | false => simp [BitVec.ofInt_add, BitVec.ofInt_toInt]

/-- After the increment every register has the value its operand is read with (R25, R80). -/
theorem State.readReg_advancePc_operand (s : State) (r : Reg) : s.advancePc.readReg r = operandValue s r := by
  by_cases h : r = Reg.pc
  · subst h
    simp only [operandValue, if_true]
    exact s.pc_advancePc
  · simp [operandValue, State.readReg_advancePc, h]

/-- The effective address, computed after the increment, is the number R100 gives. -/
theorem State.effAddr_advancePc (s : State) (ea : AddrMode) :
    (s.advancePc.effAddr ea).toNat = addressOf s ea := by
  cases ea with
  | direct location => rfl
  | indirect src => simp [State.effAddr, addressOf, toNat_low16, State.readReg_advancePc_operand]

/-! ### The one result of an instruction -/

/-- `writeResult` writes `dst`; every other register is as the increment leaves it. -/
theorem State.readReg_writeResult (s : State) (dst r : Reg) (f : State → Word) :
    (s.writeResult dst f).readReg r = if r = dst then f s.advancePc else operandValue s r := by
  simp only [State.writeResult, State.readReg_writeReg, State.readReg_advancePc_operand]

@[simp] theorem State.writeResult_mem (s : State) (dst : Reg) (f : State → Word) :
    (s.writeResult dst f).mem = s.mem := rfl
@[simp] theorem State.writeResult_run (s : State) (dst : Reg) (f : State → Word) :
    (s.writeResult dst f).run = s.run := rfl
@[simp] theorem State.writeResult_consoleIn (s : State) (dst : Reg) (f : State → Word) :
    (s.writeResult dst f).consoleIn = s.consoleIn := rfl
@[simp] theorem State.writeResult_events (s : State) (dst : Reg) (f : State → Word) :
    (s.writeResult dst f).events = s.events := rfl
@[simp] theorem State.writeResult_pcStoreMasked (s : State) (dst : Reg) (f : State → Word) :
    (s.writeResult dst f).pcStoreMasked = s.pcStoreMasked := rfl

/-- The two-operand shape: `dst` gets the function of the two old operand values (R83). -/
theorem State.readReg_alu2 (s : State) (f : Word → Word → Word) (dst src r : Reg) :
    (s.alu2 f dst src).readReg r =
      if r = dst then f (operandValue s dst) (operandValue s src) else operandValue s r := by
  simp only [State.alu2, State.readReg_writeResult, State.readReg_advancePc_operand]

@[simp] theorem State.alu2_mem (s : State) (f : Word → Word → Word) (dst src : Reg) :
    (s.alu2 f dst src).mem = s.mem := rfl
@[simp] theorem State.alu2_run (s : State) (f : Word → Word → Word) (dst src : Reg) :
    (s.alu2 f dst src).run = s.run := rfl
@[simp] theorem State.alu2_consoleIn (s : State) (f : Word → Word → Word) (dst src : Reg) :
    (s.alu2 f dst src).consoleIn = s.consoleIn := rfl
@[simp] theorem State.alu2_events (s : State) (f : Word → Word → Word) (dst src : Reg) :
    (s.alu2 f dst src).events = s.events := rfl
@[simp] theorem State.alu2_pcStoreMasked (s : State) (f : Word → Word → Word) (dst src : Reg) :
    (s.alu2 f dst src).pcStoreMasked = s.pcStoreMasked := rfl

/-- The one-operand shape: `dst` gets the function of its old value. -/
theorem State.readReg_alu1 (s : State) (f : Word → Word) (dst r : Reg) :
    (s.alu1 f dst).readReg r = if r = dst then f (operandValue s dst) else operandValue s r := by
  simp only [State.alu1, State.readReg_writeResult, State.readReg_advancePc_operand]

@[simp] theorem State.alu1_mem (s : State) (f : Word → Word) (dst : Reg) :
    (s.alu1 f dst).mem = s.mem := rfl
@[simp] theorem State.alu1_run (s : State) (f : Word → Word) (dst : Reg) :
    (s.alu1 f dst).run = s.run := rfl
@[simp] theorem State.alu1_consoleIn (s : State) (f : Word → Word) (dst : Reg) :
    (s.alu1 f dst).consoleIn = s.consoleIn := rfl
@[simp] theorem State.alu1_events (s : State) (f : Word → Word) (dst : Reg) :
    (s.alu1 f dst).events = s.events := rfl
@[simp] theorem State.alu1_pcStoreMasked (s : State) (f : Word → Word) (dst : Reg) :
    (s.alu1 f dst).pcStoreMasked = s.pcStoreMasked := rfl

/-! ### Branches -/

/-- The branch shape: the program counter gets the target if the condition holds after the increment; every other
register is as before. -/
theorem State.readReg_branchIf (s : State) (cond : State → Bool) (location : BitVec 16) (r : Reg) :
    (s.branchIf cond location).readReg r =
      if cond s.advancePc = true ∧ r = Reg.pc then zext32 location else operandValue s r := by
  by_cases h : cond s.advancePc = true <;>
    simp [State.branchIf, h, State.setPc, State.readReg_writeReg, State.readReg_advancePc_operand]

@[simp] theorem State.branchIf_mem (s : State) (cond : State → Bool) (location : BitVec 16) :
    (s.branchIf cond location).mem = s.mem := by
  by_cases h : cond s.advancePc = true <;> simp [State.branchIf, h]
@[simp] theorem State.branchIf_run (s : State) (cond : State → Bool) (location : BitVec 16) :
    (s.branchIf cond location).run = s.run := by
  by_cases h : cond s.advancePc = true <;> simp [State.branchIf, h]
@[simp] theorem State.branchIf_consoleIn (s : State) (cond : State → Bool) (location : BitVec 16) :
    (s.branchIf cond location).consoleIn = s.consoleIn := by
  by_cases h : cond s.advancePc = true <;> simp [State.branchIf, h]
@[simp] theorem State.branchIf_events (s : State) (cond : State → Bool) (location : BitVec 16) :
    (s.branchIf cond location).events = s.events := by
  by_cases h : cond s.advancePc = true <;> simp [State.branchIf, h]
@[simp] theorem State.branchIf_pcStoreMasked (s : State) (cond : State → Bool) (location : BitVec 16) :
    (s.branchIf cond location).pcStoreMasked = s.pcStoreMasked := by
  by_cases h : cond s.advancePc = true <;> simp [State.branchIf, h]

/-! ### The unrecognized instruction -/

/-- An unrecognized instruction changes no register but the program counter. -/
theorem State.readReg_unrecognized (s : State) (w : Word) (r : Reg) :
    (s.unrecognized w).readReg r = operandValue s r := by
  simp only [State.unrecognized, State.diag, State.readReg_emit, State.readReg_advancePc_operand]

@[simp] theorem State.unrecognized_mem (s : State) (w : Word) : (s.unrecognized w).mem = s.mem := rfl
@[simp] theorem State.unrecognized_run (s : State) (w : Word) : (s.unrecognized w).run = s.run := rfl
@[simp] theorem State.unrecognized_consoleIn (s : State) (w : Word) : (s.unrecognized w).consoleIn = s.consoleIn := rfl
@[simp] theorem State.unrecognized_events (s : State) (w : Word) : (s.unrecognized w).events = s.events ++ [.diag w] := rfl
@[simp] theorem State.unrecognized_pcStoreMasked (s : State) (w : Word) : (s.unrecognized w).pcStoreMasked = s.pcStoreMasked := rfl

/-! ### The console -/

/-- `consoleRead` has nothing exactly when the environment has supplied nothing. -/
theorem State.consoleRead_none (s : State) : s.consoleRead = none ↔ s.consoleIn = .empty := by
  rw [← ConsoleInput.next_eq_none]
  unfold State.consoleRead
  split <;> simp_all

/-- `consoleRead` takes the first value and records the exchange. -/
theorem State.consoleRead_some (s : State) (v : Word) (t : State) :
    s.consoleRead = some (v, t) ↔
      ∃ rest, s.consoleIn.next = some (v, rest) ∧ t = (s.withConsoleIn rest).emit (.read v) := by
  unfold State.consoleRead
  split
  · simp_all
  · rename_i w rest h
    constructor
    · intro e
      simp only [Option.some.injEq, Prod.mk.injEq] at e
      exact ⟨rest, by simp [h, e.1], by rw [← e.2, ← e.1]⟩
    · rintro ⟨rest', h', rfl⟩
      simp only [h, Option.some.injEq, Prod.mk.injEq] at h'
      simp [h'.1, h'.2]

/-- What INP can do: it is held on an empty console input, and otherwise takes the first value. -/
theorem execInp_cases (dst : Reg) (s t : State) (h : execInp dst s = .next t) :
    (s.consoleIn = .empty ∧ t = s) ∨
      ∃ v rest, s.consoleIn.next = some (v, rest) ∧
        t = ((s.advancePc.withConsoleIn rest).emit (.read v)).writeReg dst v := by
  unfold execInp at h
  split at h
  · rename_i hn
    rw [State.consoleRead_none] at hn
    exact .inl ⟨hn, by cases h; rfl⟩
  · rename_i v s1 hs
    obtain ⟨rest, hin, rfl⟩ := (State.consoleRead_some _ _ _).mp hs
    exact .inr ⟨v, rest, hin, by cases h; rfl⟩

/-! ### One step -/

/-- What a step can do: a Halted engine stays as it is, a Running one executes the decoded word. -/
theorem step_cases (s t : State) (h : step s = .next t) :
    (s.run = .halted ∧ t = s) ∨ (s.run = .running ∧ exec (decode s.fetchWord) s = .next t) := by
  unfold step at h
  split at h
  · rename_i hr
    exact .inl ⟨hr, by cases h; rfl⟩
  · rename_i hr
    exact .inr ⟨hr, h⟩

/-- A step of a Running engine is the execution of the decoded word. -/
theorem step_running (s : State) (h : s.run = .running) : step s = exec (decode s.fetchWord) s := by
  simp [step, h]

end Sys2Proof.Machine
end

