-- ==== Sys2Proof/Laws/PerInstr.lean ====
section
/-! SUPPORT. The family EncodedOpcode: the word of a well-formed instruction has that instruction's opcode in bits 28..24
(30_encoding.md R65), one lemma for each constructor. -/

namespace Sys2Proof.Laws

/-- The statement of the family. -/
def EncodedOpcode.Statement (i : Instr) : Prop := i.wellFormed = true → opcodeField (encode i) = i.opcode

theorem EncodedOpcode.hlt : Statement .hlt :=
  fun _ => opcodeField_encodeFields _

theorem EncodedOpcode.ldr (dst : Reg) (ea : AddrMode) : Statement (.ldr dst ea) := by
  intro _
  cases ea <;> exact opcodeField_encodeFields _

theorem EncodedOpcode.str (dst : Reg) (ea : AddrMode) : Statement (.str dst ea) := by
  intro _
  cases ea <;> exact opcodeField_encodeFields _

theorem EncodedOpcode.inp (dst : Reg) : Statement (.inp dst) :=
  fun _ => opcodeField_encodeFields _

theorem EncodedOpcode.out (dst : Reg) : Statement (.out dst) :=
  fun _ => opcodeField_encodeFields _

theorem EncodedOpcode.cpr (dst src : Reg) : Statement (.cpr dst src) :=
  fun _ => opcodeField_encodeFields _

theorem EncodedOpcode.cpv (dst : Reg) (location : BitVec 16) : Statement (.cpv dst location) :=
  fun _ => opcodeField_encodeFields _

theorem EncodedOpcode.add (dst src : Reg) : Statement (.add dst src) :=
  fun _ => opcodeField_encodeFields _

theorem EncodedOpcode.sub (dst src : Reg) : Statement (.sub dst src) :=
  fun _ => opcodeField_encodeFields _

theorem EncodedOpcode.lsl (dst src : Reg) : Statement (.lsl dst src) :=
  fun _ => opcodeField_encodeFields _

theorem EncodedOpcode.lsr (dst src : Reg) : Statement (.lsr dst src) :=
  fun _ => opcodeField_encodeFields _

theorem EncodedOpcode.and (dst src : Reg) : Statement (.and dst src) :=
  fun _ => opcodeField_encodeFields _

theorem EncodedOpcode.orr (dst src : Reg) : Statement (.orr dst src) :=
  fun _ => opcodeField_encodeFields _

theorem EncodedOpcode.xor (dst src : Reg) : Statement (.xor dst src) :=
  fun _ => opcodeField_encodeFields _

theorem EncodedOpcode.not (dst : Reg) : Statement (.not dst) :=
  fun _ => opcodeField_encodeFields _

theorem EncodedOpcode.bra (location : BitVec 16) : Statement (.bra location) :=
  fun _ => opcodeField_encodeFields _

theorem EncodedOpcode.brz (dst : Reg) (location : BitVec 16) : Statement (.brz dst location) :=
  fun _ => opcodeField_encodeFields _

theorem EncodedOpcode.brp (dst : Reg) (location : BitVec 16) : Statement (.brp dst location) :=
  fun _ => opcodeField_encodeFields _

theorem EncodedOpcode.unassigned01 (w : Word) : Statement (.unassigned01 w) :=
  fun h => eq_of_beq h

theorem EncodedOpcode.unassigned17 (w : Word) : Statement (.unassigned17 w) :=
  fun h => eq_of_beq h

theorem EncodedOpcode.unassigned20 (w : Word) : Statement (.unassigned20 w) :=
  fun h => eq_of_beq h

theorem EncodedOpcode.unassigned21 (w : Word) : Statement (.unassigned21 w) :=
  fun h => eq_of_beq h

theorem EncodedOpcode.unassigned22 (w : Word) : Statement (.unassigned22 w) :=
  fun h => eq_of_beq h

theorem EncodedOpcode.unassigned23 (w : Word) : Statement (.unassigned23 w) :=
  fun h => eq_of_beq h

theorem EncodedOpcode.unassigned24 (w : Word) : Statement (.unassigned24 w) :=
  fun h => eq_of_beq h

theorem EncodedOpcode.unassigned25 (w : Word) : Statement (.unassigned25 w) :=
  fun h => eq_of_beq h

theorem EncodedOpcode.unassigned26 (w : Word) : Statement (.unassigned26 w) :=
  fun h => eq_of_beq h

theorem EncodedOpcode.unassigned27 (w : Word) : Statement (.unassigned27 w) :=
  fun h => eq_of_beq h

theorem EncodedOpcode.unassigned28 (w : Word) : Statement (.unassigned28 w) :=
  fun h => eq_of_beq h

theorem EncodedOpcode.unassigned29 (w : Word) : Statement (.unassigned29 w) :=
  fun h => eq_of_beq h

theorem EncodedOpcode.unassigned30 (w : Word) : Statement (.unassigned30 w) :=
  fun h => eq_of_beq h

theorem EncodedOpcode.unassigned31 (w : Word) : Statement (.unassigned31 w) :=
  fun h => eq_of_beq h

end Sys2Proof.Laws
end

