-- ==== Sys2Proof/Tests/Slice0.lean ====
section
/-! SUPPORT. The model's own tests. Expected results come from the spec: the worked encodings (30_encoding.md section 5) and
the vectors of 95_test_vectors.md, named in each comment. Each test of an instruction is ONE step of a small state. At the
end, for each statement with hypotheses, a state and operands that meet them. -/

namespace Sys2Proof.Tests

open Sys2Proof.Machine

/-- `general[i]`. -/
def g (i : Fin 16) : Reg := ⟨.general, i⟩

/-- `system[i]`. -/
def y (i : Fin 16) : Reg := ⟨.system, i⟩

/-- The reset state with some registers and memory words set. -/
def st (regs : List (Reg × Word)) (words : List (Addr × Word)) : State :=
  words.foldl (fun s p => s.storeWord p.1 p.2) (regs.foldl (fun s p => s.writeReg p.1 p.2) State.reset)

/-- The state with the word `w` at its fetch address. -/
def at_ (s : State) (w : Word) : State := s.storeWord s.fetchAddr w

/-- The next state of an outcome (the reset state if there is none; `test_step_is_next` rules that out). -/
def after (o : Host.Outcome State Fault Refusal) : State :=
  match o with
  | .next t => t
  | .fault _ => State.reset
  | .refused _ => State.reset

/-- One step with the word `w` at the fetch address of `s`. -/
def run1 (s : State) (w : Word) : State := after (step (at_ s w))

/-! ### Well-formedness: each check refuses an ill-formed term (opcode field of another row) -/

theorem test_wf_refuses_unassigned01 : (Instr.unassigned01 0x11000000).wellFormed = false := by decide
theorem test_wf_refuses_unassigned17 : (Instr.unassigned17 0x01000000).wellFormed = false := by decide
theorem test_wf_refuses_unassigned20 : (Instr.unassigned20 0x13000000).wellFormed = false := by decide
theorem test_wf_refuses_unassigned21 : (Instr.unassigned21 0x14000000).wellFormed = false := by decide
theorem test_wf_refuses_unassigned22 : (Instr.unassigned22 0x15000000).wellFormed = false := by decide
theorem test_wf_refuses_unassigned23 : (Instr.unassigned23 0x16000000).wellFormed = false := by decide
theorem test_wf_refuses_unassigned24 : (Instr.unassigned24 0x17000000).wellFormed = false := by decide
theorem test_wf_refuses_unassigned25 : (Instr.unassigned25 0x18000000).wellFormed = false := by decide
theorem test_wf_refuses_unassigned26 : (Instr.unassigned26 0x19000000).wellFormed = false := by decide
theorem test_wf_refuses_unassigned27 : (Instr.unassigned27 0x1A000000).wellFormed = false := by decide
theorem test_wf_refuses_unassigned28 : (Instr.unassigned28 0x1B000000).wellFormed = false := by decide
theorem test_wf_refuses_unassigned29 : (Instr.unassigned29 0x1C000000).wellFormed = false := by decide
theorem test_wf_refuses_unassigned30 : (Instr.unassigned30 0x1D000000).wellFormed = false := by decide
theorem test_wf_refuses_unassigned31 : (Instr.unassigned31 0x1E000000).wellFormed = false := by decide
theorem test_wf_accepts_unassigned31 : (Instr.unassigned31 0xFFFFFFFF).wellFormed = true := by decide

/-! ### Decoding, from words written out by the layout of 30_encoding.md table R60: flg0 flg1 flg2 opcode Rn Rm location -/

theorem test_decode_hlt : decode 0x00000000 = .hlt := by decide -- 0b0_0_0_00000_0000_0000_0000000000000000
theorem test_decode_hlt_ignores_fields : decode 0xE0FFFFFF = .hlt := by decide -- 0b1_1_1_00000_1111_1111_1111111111111111
theorem test_decode_ldr_direct : decode 0x423A0100 = .ldr (g 3) (.direct 0x0100) := by decide -- 0b0_1_0_00010_0011_1010_0000000100000000
theorem test_decode_ldr_indirect : decode 0x22410000 = .ldr (g 4) (.indirect (g 1)) := by decide -- 0b0_0_1_00010_0100_0001_0000000000000000
theorem test_decode_str_direct : decode 0x83000020 = .str (y 0) (.direct 0x20) := by decide -- 0b1_0_0_00011_0000_0000_0000000000100000
theorem test_decode_str_indirect : decode 0x63050000 = .str (g 0) (.indirect (y 5)) := by decide -- 0b0_1_1_00011_0000_0101_0000000000000000
theorem test_decode_inp : decode 0x04100000 = .inp (g 1) := by decide -- 0b0_0_0_00100_0001_0000_0000000000000000
theorem test_decode_out : decode 0x85F00000 = .out (y 15) := by decide -- 0b1_0_0_00101_1111_0000_0000000000000000
theorem test_decode_cpr : decode 0x46F00000 = .cpr (g 15) (y 0) := by decide -- 0b0_1_0_00110_1111_0000_0000000000000000
theorem test_decode_cpv : decode 0x87500030 = .cpv (y 5) 48 := by decide -- 0b1_0_0_00111_0101_0000_0000000000110000
theorem test_decode_add : decode 0xA8010000 = .add (y 0) (g 1) := by decide -- 0b1_0_1_01000_0000_0001_0000000000000000
theorem test_decode_sub : decode 0x09210000 = .sub (g 2) (g 1) := by decide -- 0b0_0_0_01001_0010_0001_0000000000000000
theorem test_decode_lsl : decode 0x4A3C0000 = .lsl (g 3) (y 12) := by decide -- 0b0_1_0_01010_0011_1100_0000000000000000
theorem test_decode_lsr : decode 0x0B010000 = .lsr (g 0) (g 1) := by decide -- 0b0_0_0_01011_0000_0001_0000000000000000
theorem test_decode_and : decode 0x0C010000 = .and (g 0) (g 1) := by decide -- 0b0_0_0_01100_0000_0001_0000000000000000
theorem test_decode_orr : decode 0xCD870000 = .orr (y 8) (y 7) := by decide -- 0b1_1_0_01101_1000_0111_0000000000000000
theorem test_decode_xor : decode 0x0E550000 = .xor (g 5) (g 5) := by decide -- 0b0_0_0_01110_0101_0101_0000000000000000
theorem test_decode_not_ignores_source : decode 0x4F030000 = .not (g 0) := by decide -- 0b0_1_0_01111_0000_0011_0000000000000000
theorem test_decode_bra_ignores_flags : decode 0xF0FF0003 = .bra 3 := by decide -- 0b1_1_1_10000_1111_1111_0000000000000011
theorem test_decode_brz : decode 0x92100010 = .brz (y 1) 16 := by decide -- 0b1_0_0_10010_0001_0000_0000000000010000
theorem test_decode_brp : decode 0x13F0FFFF = .brp (g 15) 65535 := by decide -- 0b0_0_0_10011_1111_0000_1111111111111111
theorem test_decode_unassigned01 : decode 0x01ABCDEF = .unassigned01 0x01ABCDEF := by decide -- opcode 00001
theorem test_decode_unassigned17 : decode 0x31ABCDEF = .unassigned17 0x31ABCDEF := by decide -- opcode 10001
theorem test_decode_unassigned20 : decode 0x54ABCDEF = .unassigned20 0x54ABCDEF := by decide -- opcode 10100
theorem test_decode_unassigned21 : decode 0x75ABCDEF = .unassigned21 0x75ABCDEF := by decide -- opcode 10101
theorem test_decode_unassigned22 : decode 0x96ABCDEF = .unassigned22 0x96ABCDEF := by decide -- opcode 10110
theorem test_decode_unassigned23 : decode 0xB7ABCDEF = .unassigned23 0xB7ABCDEF := by decide -- opcode 10111
theorem test_decode_unassigned24 : decode 0xD8ABCDEF = .unassigned24 0xD8ABCDEF := by decide -- opcode 11000
theorem test_decode_unassigned25 : decode 0xF9ABCDEF = .unassigned25 0xF9ABCDEF := by decide -- opcode 11001
theorem test_decode_unassigned26 : decode 0x1AABCDEF = .unassigned26 0x1AABCDEF := by decide -- opcode 11010
theorem test_decode_unassigned27 : decode 0x3BABCDEF = .unassigned27 0x3BABCDEF := by decide -- opcode 11011
theorem test_decode_unassigned28 : decode 0x5CABCDEF = .unassigned28 0x5CABCDEF := by decide -- opcode 11100
theorem test_decode_unassigned29 : decode 0x7DABCDEF = .unassigned29 0x7DABCDEF := by decide -- opcode 11101
theorem test_decode_unassigned30 : decode 0x9EABCDEF = .unassigned30 0x9EABCDEF := by decide -- opcode 11110
theorem test_decode_unassigned31 : decode 0xBFABCDEF = .unassigned31 0xBFABCDEF := by decide -- opcode 11111

theorem test_table_word : decodeTableWord 32 0x08010000 = some (.add (g 0) (g 1)) := by decide
theorem test_table_word_high_bits_zero : decodeTableWord 8 0xFF = some .hlt := by decide

/-! ### One step of each instruction (95_test_vectors.md) -/

/-- V-CYC-2. -/
theorem test_hlt : (run1 State.reset 0xE0FFFFFF).run = .halted := by decide
/-- V-CYC-1. -/
theorem test_hlt_pc : (run1 State.reset 0x00000000).pc = 1 := by decide
/-- V-CYC-3 and the sentence after the table: for each unassigned opcode k the word k * 0x01000000 gives `Diag` of itself,
the engine stays Running and the program counter is 1. -/
theorem test_unassigned : ([1, 17, 20, 21, 22, 23, 24, 25, 26, 27, 28, 29, 30, 31] : List Nat).all (fun k =>
    let w : Word := BitVec.ofNat 32 (k * 0x01000000)
    let t := run1 State.reset w
    t.diagnostics == [w] && t.run == .running && t.pc == 1 && t.consoleOut == []) = true := by decide
/-- V-LS-5. -/
theorem test_ldr_address_modulo : (run1 (st [(g 1, 0xFFFF0021)] [(33, 7)]) 0x22410000).readReg (g 4) = 7 := by decide
/-- V-LS-6. -/
theorem test_ldr_source_is_destination : (run1 (st [(g 1, 64)] [(64, 99)]) 0x22110000).readReg (g 1) = 99 := by decide
/-- V-LS-12. -/
theorem test_str_indirect : (run1 (st [(g 0, 0x80000006), (y 5, 50)] []) 0x63050000).mem.readWord 50 = 0x80000006 := by decide
/-- V-LS-14. -/
theorem test_str_stores_incremented_pc : (run1 (st [] []) 0x83000020).mem.readWord 0x20 = 1 := by decide
/-- V-IO-1. -/
theorem test_inp : (let t := run1 (State.reset.supply (.ofList [9, 3])) 0x04100000; (t.readReg (g 1), t.consoleIn, t.pc)) = (9, .ofList [3], 1) := by decide
/-- V-IO-3: no step is enabled, the engine is Running and blocked. -/
theorem test_inp_held : run1 State.reset 0x04100000 = at_ State.reset 0x04100000 := by decide
/-- V-IO-5. -/
theorem test_out_pattern : (run1 (st [(g 15, 0xFFFFFFFF)] []) 0x05F00000).consoleOut = [0xFFFFFFFF] := by decide
/-- V-IO-6. -/
theorem test_out_incremented_pc : (run1 State.reset 0x85000000).consoleOut = [1] := by decide
/-- V-CP-3. -/
theorem test_cpr_reads_incremented_pc : (run1 State.reset 0x46F00000).readReg (g 15) = 1 := by decide
/-- V-CP-5. -/
theorem test_cpr_jump : (let t := run1 (st [(g 15, 74565)] []) 0x860F0000; (t.pc, t.fetchAddr)) = (74565, 0x2345) := by decide
/-- V-CP-6. -/
theorem test_cpv_zero_extends : (run1 (st [(g 0, 0xFFFFFFFF)] []) 0x0700FFFF).readReg (g 0) = 65535 := by decide
/-- V-CP-10. -/
theorem test_cpv_ignores_fields : (let t := run1 (st [(g 9, 5), (y 9, 6)] []) 0x67A9002A; (t.readReg (g 10), t.readReg (g 9), t.readReg (y 9))) = (42, 5, 6) := by decide
/-- V-AR-2, S3. -/
theorem test_add_wraps : (run1 (st [(g 0, 2147483647), (g 1, 1)] []) 0x08010000).readReg (g 0) = 0x80000000 := by decide
/-- V-AR-8. -/
theorem test_add_relative_jump : (run1 (st [(y 0, 9), (g 2, 1)] []) 0x88020000).pc = 11 := by decide
/-- V-AR-11. -/
theorem test_sub_minuend : ((run1 (st [(g 2, 3), (g 1, 9)] []) 0x09210000).readReg (g 2)).toInt = -6 := by decide
/-- V-AR-12. -/
theorem test_sub_wraps : (run1 (st [(g 2, 0x80000000), (g 1, 1)] []) 0x09210000).readReg (g 2) = 2147483647 := by decide
/-- V-SH-8. -/
theorem test_lsl_discards : (run1 (st [(g 0, 0x12345678), (g 1, 8)] []) 0x0A010000).readReg (g 0) = 0x34567800 := by decide
/-- V-SH-4. -/
theorem test_lsl_by_31 : (run1 (st [(g 0, 5), (g 1, 31)] []) 0x0A010000).readReg (g 0) = 0x80000000 := by decide
/-- V-SH-11. -/
theorem test_lsr_rounds_down : ((run1 (st [(g 0, 0xFFFFFFF9), (g 1, 1)] []) 0x0B010000).readReg (g 0)).toInt = -4 := by decide
/-- V-SH-15. -/
theorem test_lsr_sign_fills : (run1 (st [(g 0, 0x80000000), (g 1, 4)] []) 0x0B010000).readReg (g 0) = 0xF8000000 := by decide
/-- V-LG-1. -/
theorem test_and : (run1 (st [(g 0, 0x0000FF0F), (g 1, 0x000000FF)] []) 0x0C010000).readReg (g 0) = 0x0000000F := by decide
/-- V-LG-4. -/
theorem test_orr : (run1 (st [(g 0, 0x00000F00), (g 1, 0x000000F0)] []) 0x0D010000).readReg (g 0) = 0x00000FF0 := by decide
/-- 45_logic.md, the example of XOR. -/
theorem test_xor : (run1 (st [(g 0, 0x000000FF), (g 1, 0x0000000F)] []) 0x0E010000).readReg (g 0) = 0x000000F0 := by decide
/-- V-LG-12. -/
theorem test_not_ignores_source : (let t := run1 (st [(g 0, 5), (y 3, 1234), (g 3, 77)] []) 0x4F030000; ((t.readReg (g 0)).toInt, t.readReg (y 3), t.readReg (g 3))) = (-6, 1234, 77) := by decide
/-- V-LG-13. -/
theorem test_not_system : (let t := run1 (st [(y 4, 0xFFFFFFFF), (g 4, 9)] []) 0x8F400000; (t.readReg (y 4), t.readReg (g 4))) = (0, 9) := by decide
/-- V-BR-4. -/
theorem test_bra_ignores_flags : (let t := run1 (st [(y 0, 6), (g 15, 1), (y 15, 2)] []) 0xF0FF0003; (t.pc, t.readReg (g 15), t.readReg (y 15))) = (3, 1, 2) := by decide
/-- V-BR-7. -/
theorem test_brz_tests_all_bits : (run1 (st [(y 0, 3), (g 1, 0x80000000)] []) 0x12100007).pc = 4 := by decide
/-- V-BR-8. -/
theorem test_brz_system : (run1 (st [(y 1, 0), (g 1, 5)] []) 0x92100010).pc = 16 := by decide
/-- V-BR-13, S5. -/
theorem test_brp_negative : (run1 (st [(y 0, 4), (g 2, 0xFFFFFFFF)] []) 0x13200007).pc = 5 := by decide
/-- V-BR-16. -/
theorem test_brp_incremented_pc : (run1 State.reset 0x93000009).pc = 9 := by decide
/-- V-PC-4, the default reading. -/
theorem test_pc_mask_not_stored : (run1 (st [(y 0, 74565)] []) 0x46000000).readReg (g 0) = 74566 := by decide
/-- V-PC-4, PC_STORE_MASKED = true. -/
theorem test_pc_mask_stored : (run1 { st [(y 0, 74565)] [] with pcStoreMasked := true } 0x46000000).readReg (g 0) = 9030 := by decide
/-- V-PC-5. -/
theorem test_pc_increment_wraps : (run1 (st [(y 0, 2147483647)] []) 0x06220000).pc = 0x80000000 := by decide
/-- V-LS-15: the next step executes HLT, no `Diag`. -/
theorem test_store_seen_by_next_fetch : (let t := after (step (run1 (st [] [(1, 0x1F000000)]) 0x03000001)); (t.run, t.diagnostics)) = (.halted, []) := by decide
/-- 20_memory.md R42, on the first word of program P2. -/
theorem test_image_bytes : (match imageWords [0x05, 0x00, 0x10, 0x07] with | .ok ws => ws | .error _ => []) = [0x07100005] := by decide
/-- The image load puts word 1 at address 1 and leaves the rest zero (20_memory.md R50). -/
theorem test_launch : (match State.reset.launch [7, 9] with
    | .ok t => (t.mem.readWord 0, t.mem.readWord 1, t.mem.readWord 2, t.mem.wf)
    | .error _ => (0, 0, 0, false)) = (7, 9, 0, true) := by decide

/-- `withFetchWord` makes the very next step run the instruction. -/
theorem test_withFetchWord : step (State.reset.withFetchWord 32 0x07000005) =
    exec (.cpv (g 0) 5) (State.reset.withFetchWord 32 0x07000005) := rfl

/-- A step answers a next state, so `after` shows it. -/
theorem test_step_is_next : step (at_ State.reset 0x08010000) = .next (run1 State.reset 0x08010000) := rfl

/-! ### Witnesses: concrete states and operands that meet the hypotheses of each statement that has some -/

/-- The opcode clauses of HltHalts to BrpBranchesOnNonNegative and of DecodedOpcodeIsOpcodeField, for every opcode. -/
theorem witness_opcode_clauses : (List.range 32).all (fun k =>
    (decodeFields (BitVec.ofNat 32 (k * 0x01000000))).opcode == BitVec.ofNat 5 k) = true := by decide

theorem witness_DecodedOpcodeIsOpcodeField :
    (decodeFields 0x08010000).opcode = (decodeFields 0xE8FFFFFF).opcode := by decide

/-- The decoding clause of UnassignedOpcodesReportAndGoOn, for each of its 14 opcodes. -/
theorem witness_UnassignedOpcodesReportAndGoOn : unassignedOpcodes.all (fun k =>
    (opcodeField (BitVec.ofNat 32 (k * 0x01000000 + 0xE0FFFFFF))).toNat == k) = true := by decide

/-- A state about to execute `STR general[0], [0x0001]` with 0x07000005 in `general[0]`. -/
def storing : State := at_ (st [(g 0, 0x07000005)] []) 0x03000001

theorem witness_StepKeepsMemoryCanonical : CanonicalMem storing ∧ step storing = .next (after (step storing)) :=
  ⟨rfl, rfl⟩

theorem witness_CanonicalMemoriesEqualByWords : ∃ m n : Memory, m.wf = true ∧ n.wf = true ∧ m ≠ [] ∧
    ∀ a, m.readWord a = n.readWord a :=
  ⟨[(262143, 1)], [(262143, 1)], by decide, by decide, by decide, fun _ => rfl⟩

theorem witness_StepRunsDecodedInstruction : storing.run = .running ∧
    decode (storing.mem.readWord (BitVec.ofNat 16 (storing.pc.toNat % 65536))) = .str (g 0) (.direct 1) ∧
    (Instr.str (g 0) (.direct 1)).wellFormed = true := by decide

theorem witness_DecodeEncodeRoundTrip : (Instr.unassigned31 0xFFFFFFFF).wellFormed = true ∧
    (Instr.ldr (y 15) (.indirect (g 15))).wellFormed = true := by decide

/-- The last clause of HltHalts: a step of the state HLT leaves. -/
theorem witness_HltHalts : ∃ t u, exec .hlt State.reset = .next t ∧ step t = .next u :=
  ⟨State.reset.advancePc.halt, State.reset.advancePc.halt, rfl, rfl⟩

/-- A finite console input with a first value, and an infinite one. -/
theorem witness_InpTakesNextValue : (State.reset.supply (.ofList [0x80000000])).consoleIn.valueAt 0 = some 0x80000000 ∧
    ∃ v, (State.reset.supply ⟨[], .endless 0 0⟩).consoleIn.valueAt 0 = some v := ⟨by decide, _, rfl⟩

theorem witness_InpHoldsUntilSupplied : (at_ State.reset 0x04100000).run = .running ∧
    decode (at_ State.reset 0x04100000).fetchWord = .inp (g 1) ∧ (at_ State.reset 0x04100000).consoleIn = .empty ∧
    (ConsoleInput.ofList [7]).valueAt 0 = some 7 := by decide

/-- The hypotheses of LslShiftsLeftInRange and LsrShiftsRightArithmeticInRange at both ends of the range. -/
theorem witness_shifts_in_range : [0, 31].all (fun k : Word =>
    decide (0 ≤ (operandValue (st [(g 1, k)] []) (g 1)).toInt) &&
      decide ((operandValue (st [(g 1, k)] []) (g 1)).toInt ≤ 31)) = true := by decide

/-- The two clauses of ShiftOutOfRangeWritesFreeValue at their boundaries, -1 and 32. -/
theorem witness_ShiftOutOfRangeWritesFreeValue :
    (operandValue (st [(g 1, 0xFFFFFFFF)] []) (g 1)).toInt < 0 ∧
      31 < (operandValue (st [(g 1, 32)] []) (g 1)).toInt := by decide

/-- The clause of SubWritesWrappedDifference at both ends of the range of the difference. -/
theorem witness_SubWritesWrappedDifference :
    let lo := st [(g 0, 0x80000000), (g 1, 0)] []
    let hi := st [(g 0, 0x7FFFFFFF), (g 1, 0)] []
    (operandValue lo (g 0)).toInt - (operandValue lo (g 1)).toInt = -2 ^ 31 ∧
      (operandValue hi (g 0)).toInt - (operandValue hi (g 1)).toInt = 2 ^ 31 - 1 := by decide

/-- The two clauses of BrzBranchesOnZero. -/
theorem witness_BrzBranchesOnZero : (operandValue (st [] []) (g 1)).toInt = 0 ∧
    (operandValue (st [(g 1, 0x80000000)] []) (g 1)).toInt ≠ 0 := by decide

/-- The two clauses of BrpBranchesOnNonNegative at their boundary. -/
theorem witness_BrpBranchesOnNonNegative : 0 ≤ (operandValue (st [(g 1, 0)] []) (g 1)).toInt ∧
    (operandValue (st [(g 1, 0xFFFFFFFF)] []) (g 1)).toInt < 0 := by decide

/-- The clauses of HaltedOnlyByHlt: a launch, a step of a Running engine at HLT and one at another word, a step of a Halted
engine. -/
theorem witness_HaltedOnlyByHlt :
    (∃ t, State.reset.launch [0x00000000] = .ok t) ∧
    (State.reset.run = .running ∧ step State.reset = .next (after (step State.reset)) ∧
      decode State.reset.fetchWord = .hlt) ∧
    (storing.run = .running ∧ step storing = .next (after (step storing)) ∧ decode storing.fetchWord ≠ .hlt) ∧
    (State.reset.halt.run = .halted ∧ step State.reset.halt = .next State.reset.halt) :=
  ⟨⟨_, rfl⟩, ⟨rfl, rfl, by decide⟩, ⟨rfl, rfl, by decide⟩, ⟨rfl, rfl⟩⟩

theorem witness_ZeroMemoryHalts : State.reset.run = .running ∧ State.reset.fetchWord = 0 := by decide

/-- A state about to execute `ADD general[0], general[1]`. -/
def adding : State := at_ (st [(g 0, 10), (g 1, 5)] []) 0x08010000

theorem adding_fetches : decode adding.fetchWord = .add (g 0) (g 1) := by decide

theorem witness_MemoryChangedOnlyByStr : step adding = .next (after (step adding)) ∧
    ∀ dst ea, decode adding.fetchWord ≠ .str dst ea := by
  refine ⟨rfl, fun dst ea => ?_⟩
  rw [adding_fetches]
  exact Instr.noConfusion

/-- StoreSeenByNextFetch, with the store at the next fetch address. -/
theorem witness_StoreSeenByNextFetch : storing.run = .running ∧ decode storing.fetchWord = .str (g 0) (.direct 1) ∧
    (after (step storing)).fetchAddr.toNat = addressOf storing (.direct 1) := by decide

theorem witness_OnlyDestinationRegisterChanges :
    exec (.add (g 0) (g 1)) adding = .next (after (exec (.add (g 0) (g 1)) adding)) ∧ g 1 ≠ Reg.pc ∧
      destination (.add (g 0) (g 1)) ≠ some (g 1) := ⟨rfl, by decide, by decide⟩

/-- The five clauses of EveryWayThePcChanges: BRA; BRZ taken and not; BRP taken and not; a held INP; and an instruction
that none of the others covers. -/
theorem witness_EveryWayThePcChanges :
    decode (at_ State.reset 0x1000FFFF).fetchWord = .bra 65535 ∧
    (decode (at_ State.reset 0x12100007).fetchWord = .brz (g 1) 7 ∧
      operandValue (at_ State.reset 0x12100007) (g 1) = 0 ∧
      operandValue (at_ (st [(g 1, 5)] []) 0x12100007) (g 1) ≠ 0) ∧
    (decode (at_ State.reset 0x13200007).fetchWord = .brp (g 2) 7 ∧
      0 ≤ (operandValue (at_ State.reset 0x13200007) (g 2)).toInt ∧
      ¬0 ≤ (operandValue (at_ (st [(g 2, 0xFFFFFFFF)] []) 0x13200007) (g 2)).toInt) ∧
    (decode (at_ State.reset 0x04100000).fetchWord = .inp (g 1) ∧ (at_ State.reset 0x04100000).consoleIn = .empty) ∧
    (destination (decode adding.fetchWord) ≠ some Reg.pc ∧ adding.run = .running) := by decide

theorem witness_EveryWayThePcChanges_steps : step adding = .next (after (step adding)) ∧
    step (at_ State.reset 0x04100000) = .next (at_ State.reset 0x04100000) := ⟨rfl, rfl⟩

/-- SequentialFetchWraps at the last address. -/
theorem witness_SequentialFetchWraps : (run1 (st [(y 0, 65535)] []) 0x06220000).pc =
    pcAfterFetch (at_ (st [(y 0, 65535)] []) 0x06220000) := by decide

/-- PcMaskReadingsAgree: a run of one step from the highest program counter allowed. -/
theorem witness_PcMaskReadingsAgree : ∃ s t, s.pcStoreMasked = false ∧ Runs (fun u => u.pc.toNat < 65536) 1 s t ∧
    s.pc = 65535 :=
  ⟨at_ (st [(y 0, 65535)] []) 0x06220000, run1 (st [(y 0, 65535)] []) 0x06220000, rfl, .more (by decide) rfl (.done _),
    by decide⟩

/-- A run of one step, for PcParameterNeverChanges, OutputsAreUnobservable and InputConsumedInOrder. -/
theorem witness_run : ∃ s t, step s = .next t ∧ Reaches 1 s t ∧ t.events = [.read 9] :=
  ⟨at_ (State.reset.supply (.ofList [9, 3])) 0x04100000, run1 (State.reset.supply (.ofList [9, 3])) 0x04100000, rfl,
    .more trivial rfl (.done _), by decide⟩

/-- A state about to execute `INP general[1]` on an infinite console input. -/
def reading : State := at_ (State.reset.supply ⟨[], .endless 0 0⟩) 0x04100000

/-- InputPremiseFollowsTheRun, for a finite sequence and for an infinite one. -/
theorem witness_InputPremiseFollowsTheRun :
    (Reaches 1 adding (after (step adding)) ∧ Input (.finite []) adding) ∧
    ∃ t, Reaches 1 reading t ∧ Input (.infinite (Config.endlessInput 0)) reading :=
  ⟨⟨.more trivial rfl (.done _), fun _ => rfl⟩, _, .more trivial rfl (.done _), fun i =>
    congrArg (fun n => some (Config.endlessInput 0 n)) (Nat.zero_add i)⟩

/-- InfiniteInputActsAsItsPrefixes: the premise, a run of one step, and a Running engine at an INP. -/
theorem witness_InfiniteInputActsAsItsPrefixes : Input (.infinite (Config.endlessInput 0)) reading ∧
    (∃ t, Reaches 1 reading t) ∧ reading.run = .running ∧ decode reading.fetchWord = .inp (g 1) :=
  ⟨witness_InputPremiseFollowsTheRun.2.choose_spec.2, ⟨_, .more trivial rfl (.done _)⟩, rfl, by decide⟩

/-- LaunchMeetsPremises: the premise on the console input. -/
theorem witness_LaunchMeetsPremises_input : Input (.infinite (Config.endlessInput 0)) reading :=
  witness_InputPremiseFollowsTheRun.2.choose_spec.2

theorem witness_InputObservedOnlyByInp : step adding = .next (after (step adding)) ∧
    ∀ dst, decode adding.fetchWord ≠ .inp dst := by
  refine ⟨rfl, fun dst => ?_⟩
  rw [adding_fetches]
  exact Instr.noConfusion

/-- OneEventPerInstruction: a step of a Running engine, for INP, OUT, an unassigned opcode and another instruction. -/
theorem witness_OneEventPerInstruction :
    (eventsOf (at_ (State.reset.supply (.ofList [9])) 0x04100000) = [.read 9] ∧
      eventsOf (at_ State.reset 0x85000000) = [.wrote 1] ∧
      eventsOf (at_ State.reset 0x1F000000) = [.diag 0x1F000000] ∧ eventsOf adding = []) ∧
    adding.run = .running := by decide

theorem witness_RecognizedRunsEmitNoDiagnostic : Runs Recognized 1 adding (after (step adding)) :=
  .more (by unfold Recognized; decide) rfl (.done _)

/-- LaunchMeetsPremises at the largest image and one word above it. -/
theorem witness_LaunchMeetsPremises : (List.replicate 65536 (0 : Word)).length ≤ 65536 ∧
    65536 < (List.replicate 65537 (0 : Word)).length := by
  simp only [List.length_replicate]
  decide

theorem witness_LaunchDiscardsTheRun : storing ≠ adding ∧ storing.consoleIn = adding.consoleIn ∧
    storing.pcStoreMasked = adding.pcStoreMasked := by decide

/-- ImageBytesAreLittleEndian: a rest that is a whole image, and the three lengths that are not. -/
theorem witness_ImageBytesAreLittleEndian : imageWords [] = .ok [] ∧
    [1, 2, 3].all (fun n => (List.replicate n (0 : Byte)).length % 4 != 0) = true := ⟨rfl, by decide⟩

/-- SubThenBrpComparesSigned at both ends of the range of the difference. -/
theorem witness_SubThenBrpComparesSigned :
    let lo := st [(g 0, 0x80000000), (g 1, 0)] []
    let hi := st [(g 0, 0x7FFFFFFF), (g 1, 0)] []
    g 0 ≠ Reg.pc ∧ (lo.readReg (g 0)).toInt - (operandValue lo (g 1)).toInt = -2 ^ 31 ∧
      (hi.readReg (g 0)).toInt - (operandValue hi (g 1)).toInt = 2 ^ 31 - 1 := by decide

end Sys2Proof.Tests
end

section
/-! # The state: reset, the run state, and which register an instruction changes (10_state.md)

`Effect` lists the shapes a cycle can have and `exec_effect` says that `exec` has no others. What every instruction
keeps then follows by a case split over these shapes, not over the 32 arms of `exec`. -/

namespace Sys2Proof.Machine

/-! ### The state after reset and after a launch -/

/-- A memory with nothing listed is zero (R33, D17). -/
@[simp] theorem Memory.readWord_nil (a : Addr) : Memory.readWord [] a = 0 := by
  simp [Memory.readWord, Memory.readByte, Memory.unlisted]

/-- Every register is 0 after reset (table R33, D4). -/
@[simp] theorem State.readReg_reset (r : Reg) : State.reset.readReg r = 0 := by
  obtain ⟨bank, index⟩ := r
  cases bank with
  | general | system => simp [State.readReg, State.reset, Vector.get_eq_getElem]

/-- What a launch that loads its image gives. -/
theorem State.launch_ok {s t : State} {image : List Word} (h : s.launch image = .ok t) :
    image.length ≤ Config.memWords ∧
      t = { State.reset with
        mem := Memory.place [] 0 image
        consoleIn := s.consoleIn
        pcStoreMasked := s.pcStoreMasked } := by
  unfold State.launch at h
  split at h
  case isTrue fits => exact ⟨fits, (Except.ok.inj h).symm⟩
  case isFalse => cases h

/-! ### The shapes of a cycle -/

/-- `Effect s i t`: executing `i` from `s` gives `t`, by the shape of the cycle that `i` has (R87). -/
inductive Effect (s : State) : Instr → State → Prop
  /-- HLT (R84). -/
  | halt : Effect s .hlt s.advancePc.halt
  /-- An instruction that computes a value and writes it to its destination (R83). -/
  | write {i : Instr} {dst : Reg} (hdst : destination i = some dst) (value : State → Word) :
      Effect s i (s.writeResult dst value)
  /-- STR (R102). -/
  | store (dst : Reg) (ea : AddrMode) :
      Effect s (.str dst ea) (s.advancePc.storeWord (s.advancePc.effAddr ea) (s.advancePc.readReg dst))
  /-- INP while no console value is there: held (R112, D10; log 10). -/
  | hold (dst : Reg) (hin : s.consoleIn = .empty) : Effect s (.inp dst) s
  /-- INP with the console value it takes (R112). -/
  | input (dst : Reg) (v : Word) (rest : ConsoleInput) (hin : s.consoleIn.next = some (v, rest)) :
      Effect s (.inp dst) (((s.advancePc.withConsoleIn rest).emit (.read v)).writeReg dst v)
  /-- OUT (R113). -/
  | output (dst : Reg) : Effect s (.out dst) (s.advancePc.consoleWrite (s.advancePc.readReg dst))
  /-- BRA (R160). -/
  | always (location : BitVec 16) : Effect s (.bra location) (s.branchIf (fun _ => true) location)
  /-- BRZ (R161). -/
  | ifZero (dst : Reg) (location : BitVec 16) :
      Effect s (.brz dst location) (s.branchIf (fun s1 => isZero (s1.readReg dst)) location)
  /-- BRP (R162). -/
  | ifNonNegative (dst : Reg) (location : BitVec 16) :
      Effect s (.brp dst location) (s.branchIf (fun s1 => isNonNegative (s1.readReg dst)) location)
  /-- An unassigned opcode, whose constructor carries the word it reports and encodes to (R85). -/
  | unrecognized {i : Instr} (hop : i.opcode.toNat ∈ unassignedOpcodes) : Effect s i (s.unrecognized (encode i))

/-- `exec` has no other shape than those of `Effect`. -/
theorem exec_effect {i : Instr} {s t : State} (h : exec i s = .next t) : Effect s i t := by
  cases i with
  | hlt => cases h; exact .halt
  | str dst ea => cases h; exact .store dst ea
  | out dst => cases h; exact .output dst
  | bra location => cases h; exact .always location
  | brz dst location => cases h; exact .ifZero dst location
  | brp dst location => cases h; exact .ifNonNegative dst location
  | inp dst =>
    obtain ⟨hin, rfl⟩ | ⟨v, rest, hin, rfl⟩ := execInp_cases dst s t h
    · exact .hold dst hin
    · exact .input dst v rest hin
  | ldr | cpr | cpv | add | sub | lsl | lsr | and | orr | xor | not => cases h; exact .write rfl _
  | unassigned01 | unassigned17 | unassigned20 | unassigned21 | unassigned22 | unassigned23 | unassigned24
  | unassigned25 | unassigned26 | unassigned27 | unassigned28 | unassigned29 | unassigned30 | unassigned31 =>
    cases h; exact .unrecognized (by simp [Instr.opcode, unassignedOpcodes])

/-! ### What every instruction keeps -/

/-- The fetch phase leaves every register but the program counter as it was (R80). -/
theorem operandValue_of_ne_pc (s : State) {r : Reg} (h : r ≠ Reg.pc) : operandValue s r = s.readReg r :=
  if_neg h

/-- No shape of a cycle changes a register other than its destination and the program counter (table R23). -/
theorem Effect.readReg_of_ne {s t : State} {i : Instr} {r : Reg} (h : Effect s i t) (hpc : r ≠ Reg.pc)
    (hdst : destination i ≠ some r) : t.readReg r = s.readReg r := by
  rw [← operandValue_of_ne_pc s hpc]
  cases h with
  | halt => rw [State.readReg_halt, State.readReg_advancePc_operand]
  | write hd value =>
    have hne : r ≠ _ := fun e => hdst (e ▸ hd)
    rw [State.readReg_writeResult, if_neg hne]
  | store dst ea => rw [State.readReg_storeWord, State.readReg_advancePc_operand]
  | hold dst hin => exact (operandValue_of_ne_pc s hpc).symm
  | input dst v rest hin =>
    have hne : r ≠ dst := fun e => hdst (congrArg some e.symm)
    rw [State.readReg_writeReg_other _ _ _ _ hne, State.readReg_emit, State.readReg_withConsoleIn,
      State.readReg_advancePc_operand]
  | output dst => rw [State.readReg_consoleWrite, State.readReg_advancePc_operand]
  | always | ifZero | ifNonNegative => simp [State.readReg_branchIf, hpc]
  | unrecognized hop => rw [State.readReg_unrecognized]

/-- HLT halts; every other instruction keeps the run state (R28, R84). -/
theorem Effect.run_eq {s t : State} {i : Instr} (h : Effect s i t) :
    t.run = if i = .hlt then .halted else s.run := by
  cases h with
  | halt => rfl
  | write hd value =>
    have hne : i ≠ .hlt := by rintro rfl; cases hd
    rw [if_neg hne, State.writeResult_run]
  | unrecognized hop =>
    have hne : i ≠ .hlt := by rintro rfl; simp [Instr.opcode, unassignedOpcodes] at hop
    rw [if_neg hne, State.unrecognized_run]
  | store | hold | input | output => rfl
  | always | ifZero | ifNonNegative => simp

/-- A step of a Running engine halts exactly when it executes HLT (R28). -/
theorem step_halts_iff {s t : State} (hrun : s.run = .running) (h : step s = .next t) :
    t.run = .halted ↔ decode s.fetchWord = .hlt := by
  rw [step_running s hrun] at h
  rw [(exec_effect h).run_eq, hrun]
  by_cases hlt : decode s.fetchWord = .hlt <;> simp [hlt]

/-- A step of a Halted engine changes nothing (R28; log 11). -/
theorem step_halted {s t : State} (hrun : s.run = .halted) (h : step s = .next t) : t = s := by
  obtain ⟨-, heq⟩ | ⟨hrunning, -⟩ := step_cases s t h
  · exact heq
  · rw [hrun] at hrunning
    cases hrunning

/-! ### The obligations -/

/-- Settles O33: of the shapes of a cycle only HLT's changes the run state. -/
theorem haltedOnlyByHlt : Obligations.HaltedOnlyByHlt := by
  refine ⟨rfl, fun s image t h => ?_, fun s t => step_halts_iff, fun s t => step_halted, State.supply_run⟩
  obtain ⟨-, rfl⟩ := State.launch_ok h
  rfl

/-- Settles O39, by the shape of the instruction's cycle. -/
theorem onlyDestinationRegisterChanges : Obligations.OnlyDestinationRegisterChanges :=
  fun _ _ _ h _ hpc hdst => (exec_effect h).readReg_of_ne hpc hdst

/-- Settles O1, one conjunct for each row of table R33. -/
theorem resetStateValues : Obligations.ResetStateValues :=
  ⟨State.readReg_reset Reg.pc, rfl, Memory.readWord_nil, rfl, rfl, State.readReg_reset, rfl, rfl⟩

end Sys2Proof.Machine
end

section
/-! # Memory and addresses (20_memory.md)

The spec reduces a register's SIGNED value modulo 65536 (R44), the model takes its low 16 bits. The two agree because
the sign weighs 2^32, a multiple of 65536. -/

namespace Sys2Proof.Machine

/-- `low16` is the signed value modulo 65536, for negative values too (R8, R44). -/
theorem low16_eq_toInt_emod (v : Word) : ((low16 v).toNat : Int) = v.toInt % 65536 := by
  rw [toNat_low16, BitVec.toInt_eq_toNat_cond]
  split
  case isTrue nonnegative => omega
  case isFalse negative => omega

/-- Settles O36: an address from a register is its `low16`, and a word reads back at the address it was written to only. -/
theorem addressesWrapAndNoAccessFails : Obligations.AddressesWrapAndNoAccessFails :=
  ⟨fun _ _ => rfl, fun s r => low16_eq_toInt_emod (s.readReg r), fun s => low16_eq_toInt_emod s.pc,
    Memory.readWord_writeWord⟩

end Sys2Proof.Machine
end

section
/-! # The encoding (30_encoding.md)

The seven fields tile a word, so clearing fields of a record is masking its word (`encodeFields_and`). Each row of table
R66 is then one mask, itself the word of a field record: ones in the fields the row uses, zeros in the others. -/

namespace Sys2Proof

open Laws Machine

/-! ### Words and fields -/

/-- The encoder of field records undoes the extraction of fields (R62, R63). -/
theorem encodeFields_decodeFields (w : Word) : encodeFields (decodeFields w) = w := by
  apply BitVec.eq_of_toNat_eq
  have hbit (i : Nat) : (w.getLsbD i).toNat = w.toNat / 2 ^ i % 2 := by
    rw [BitVec.getLsbD, Nat.toNat_testBit]
  have hw := w.isLt
  simp only [toNat_encodeFields, decodeFields, hbit, BitVec.extractLsb'_toNat, Nat.shiftRight_eq_div_pow,
    flg0Bit, flg1Bit, flg2Bit]
  omega

/-- The fields side by side in the order of table R60, the flags by decision D1 (log 1). -/
def Fields.bits (f : Fields) : BitVec (1 + 1 + 1 + 5 + 4 + 4 + 16) :=
  BitVec.ofBool f.flg0 ++ BitVec.ofBool f.flg1 ++ BitVec.ofBool f.flg2 ++ f.opcode ++ f.rn ++ f.rm ++ f.location

/-- The sum of R63 puts the fields side by side. -/
theorem encodeFields_eq_bits (f : Fields) : encodeFields f = f.bits := by
  apply BitVec.eq_of_toNat_eq
  simp only [toNat_encodeFields, Fields.bits, BitVec.toNat_append, ← Nat.shiftLeft_add_eq_or_of_lt (BitVec.isLt _)]
  simp only [Nat.shiftLeft_eq, BitVec.toNat_ofBool]
  omega

/-- The conjunction of two field records, field by field. -/
def Fields.and (f m : Fields) : Fields where
  flg0 := f.flg0 && m.flg0
  flg1 := f.flg1 && m.flg1
  flg2 := f.flg2 && m.flg2
  opcode := f.opcode &&& m.opcode
  rn := f.rn &&& m.rn
  rm := f.rm &&& m.rm
  location := f.location &&& m.location

/-- Masking the fields masks the word. -/
theorem encodeFields_and (f m : Fields) : encodeFields (f.and m) = encodeFields f &&& encodeFields m := by
  have hbits : (f.and m).bits = f.bits &&& m.bits := by
    simp only [Fields.bits, Fields.and, BitVec.and_append, BitVec.ofBool_and_ofBool]
  rw [encodeFields_eq_bits, encodeFields_eq_bits, encodeFields_eq_bits, hbits]

/-- A register operand keeps the flag of its bank (R64, R82). -/
@[simp] theorem Bank.flag_ofFlag (flg : Bool) : (Bank.ofFlag flg).flag = flg := by
  cases flg <;> rfl

/-! ### Dispatch on the opcode

Dispatch is read backwards below: an instruction's own opcode fixes the arm of `selectInstr` that built it, and the arm
fixes its operands. -/

/-- R65: the opcode field alone decides the opcode of the instruction selected. -/
theorem opcode_selectInstr (w : Word) (f : Fields) : (selectInstr w f).opcode = f.opcode := by
  have hlt := f.opcode.isLt
  unfold selectInstr
  interval_cases hop : f.opcode.toNat
  all_goals exact BitVec.eq_of_toNat_eq hop.symm

/-- The instruction of a word has the opcode in bits 28..24 (R65). -/
theorem opcode_decode (w : Word) : (decode w).opcode = opcodeField w :=
  opcode_selectInstr w (decodeFields w)

/-- Every word decodes to a well-formed instruction: an unassigned opcode carries the word itself (R62, R85). -/
theorem wellFormed_decode (w : Word) : (decode w).wellFormed = true := by
  have hop : (decodeFields w).opcode = (decode w).opcode := (opcode_decode w).symm
  generalize hi : decode w = i at hop ⊢
  rw [decode, selectInstr, hop] at hi
  cases i with
  | hlt | ldr | str | inp | out | cpr | cpv | add | sub | lsl | lsr | and | orr | xor | not | bra | brz | brp => rfl
  | unassigned01 | unassigned17 | unassigned20 | unassigned21 | unassigned22 | unassigned23 | unassigned24
  | unassigned25 | unassigned26 | unassigned27 | unassigned28 | unassigned29 | unassigned30 | unassigned31 =>
    cases hi
    exact beq_iff_eq.mpr hop

/-! ### The rows of table R66

`w` is a word, `f` its fields: each row's canonical word (D14) is `w` with the fields that the row ignores cleared. -/

section
variable {w : Word} {f : Fields} {op : BitVec 5} (hw : encodeFields f = w) (hop : f.opcode = op)
include hw

/-- The mask of a row is the word of a field record `m`, ones in the used fields and zeros in the ignored ones. -/
theorem encodeFields_eq_mask {g m : Fields} (h : g = f.and m) : encodeFields g = w &&& encodeFields m := by
  rw [h, encodeFields_and, hw]

include hop

/-- HLT. -/
theorem encodeFields_opcode : encodeFields { opcode := op } = w &&& 0x1F000000 :=
  encodeFields_eq_mask (m := { opcode := .allOnes 5 }) hw <| by
    simp [Fields.and, hop, -BitVec.reduceAllOnes]

/-- BRA. -/
theorem encodeFields_opcode_location :
    encodeFields { opcode := op, location := f.location } = w &&& 0x1F00FFFF :=
  encodeFields_eq_mask (m := { opcode := .allOnes 5, location := .allOnes 16 }) hw <| by
    simp [Fields.and, hop, -BitVec.reduceAllOnes]

/-- INP, OUT and NOT. -/
theorem encodeFields_dst : encodeFields (dstFields op f.dst) = w &&& 0x9FF00000 :=
  encodeFields_eq_mask (m := { flg0 := true, opcode := .allOnes 5, rn := .allOnes 4 }) hw <| by
    simp [Fields.and, dstFields, Fields.dst, hop, -BitVec.reduceAllOnes]

/-- CPV, BRZ and BRP. -/
theorem encodeFields_dst_location : encodeFields (dstFields op f.dst f.location) = w &&& 0x9FF0FFFF :=
  encodeFields_eq_mask (m := { flg0 := true, opcode := .allOnes 5, rn := .allOnes 4, location := .allOnes 16 }) hw <| by
    simp [Fields.and, dstFields, Fields.dst, hop, -BitVec.reduceAllOnes]

/-- CPR and the instructions that compute from two registers. -/
theorem encodeFields_dst_src : encodeFields (dstSrcFields op f.dst f.src) = w &&& 0xDFFF0000 :=
  encodeFields_eq_mask
    (m := { flg0 := true, flg1 := true, opcode := .allOnes 5, rn := .allOnes 4, rm := .allOnes 4 }) hw <| by
    simp [Fields.and, dstSrcFields, dstFields, Fields.dst, Fields.src, hop, -BitVec.reduceAllOnes]

/-- LDR and STR: flg2 chooses between the two rows (R100). -/
theorem encodeFields_dst_addrMode : encodeFields (memFields op f.dst f.addrMode) =
    w &&& if f.flg2 then 0xFFFF0000 else 0xBFF0FFFF := by
  cases hmode : f.flg2 with
  | false =>
    refine encodeFields_eq_mask
      (m := { flg0 := true, flg2 := true, opcode := .allOnes 5, rn := .allOnes 4, location := .allOnes 16 }) hw ?_
    simp [Fields.and, Fields.addrMode, memFields, dstFields, Fields.dst, hmode, hop, -BitVec.reduceAllOnes]
  | true =>
    refine encodeFields_eq_mask
      (m := { flg0 := true, flg1 := true, flg2 := true, opcode := .allOnes 5, rn := .allOnes 4, rm := .allOnes 4 })
      hw ?_
    simp [Fields.and, Fields.addrMode, memFields, dstSrcFields, dstFields, Fields.dst, Fields.src, hmode, hop,
      -BitVec.reduceAllOnes]

end

/-- Decoding and encoding again clears the fields that the word's row of table R66 ignores (D15). -/
theorem encode_decode (w : Word) : encode (decode w) = w &&& usedMask w := by
  have hw := encodeFields_decodeFields w
  have hop : (decodeFields w).opcode = (decode w).opcode := (opcode_decode w).symm
  rw [usedMask, ← opcode_decode]
  generalize hi : decode w = i at hop ⊢
  rw [decode, selectInstr, hop] at hi
  cases i with
  | hlt => exact encodeFields_opcode hw hop
  | ldr | str => cases hi; exact encodeFields_dst_addrMode hw hop
  | inp | out | not => cases hi; exact encodeFields_dst hw hop
  | cpr | add | sub | lsl | lsr | and | orr | xor => cases hi; exact encodeFields_dst_src hw hop
  | cpv | brz | brp => cases hi; exact encodeFields_dst_location hw hop
  | bra => cases hi; exact encodeFields_opcode_location hw hop
  | unassigned01 | unassigned17 | unassigned20 | unassigned21 | unassigned22 | unassigned23 | unassigned24
  | unassigned25 | unassigned26 | unassigned27 | unassigned28 | unassigned29 | unassigned30 | unassigned31 =>
    cases hi
    exact BitVec.and_allOnes.symm

/-! ### The obligations -/

/-- Settles O9: dispatch reads the opcode and no other field. -/
theorem decodedOpcodeIsOpcodeField : Obligations.DecodedOpcodeIsOpcodeField := by
  refine ⟨fun w => ⟨wellFormed_decode w, opcode_decode w⟩, fun w f w' f' h => ?_⟩
  rw [opcode_selectInstr, opcode_selectInstr, h]

/-- Settles O10, by the rows of table R66. -/
theorem encodeDecodeKeepsUsedFields : Obligations.EncodeDecodeKeepsUsedFields :=
  encode_decode

end Sys2Proof
end

section
/-! # HLT (40_cycle_hlt_unrecognized.md section 3)

The state HLT leaves is `s.advancePc.halt`: the common increment of R80, then the run state. -/

namespace Sys2Proof.Machine

/-- Opcode 0 is HLT, whatever the other fields (R65, R84). -/
theorem selectInstr_of_opcode_zero {f : Fields} (w : Word) (hop : f.opcode = 0) : selectInstr w f = .hlt := by
  rw [selectInstr, hop]
  rfl

/-- HLT writes no register; the increment was the fetch phase's (R84). -/
theorem regsKept_halt (s : State) : RegsKept s s.advancePc.halt none := fun r _ => by
  rw [State.readReg_halt, State.readReg_advancePc_operand]

/-- HLT leaves memory as it was (R84). -/
theorem memKept_halt (s : State) : MemKept s s.advancePc.halt := fun b => by
  rw [State.halt_mem, State.advancePc_mem]

/-- HLT exchanges nothing with the console (R84). -/
theorem consoleKept_halt (s : State) : ConsoleKept s s.advancePc.halt := by
  simp [ConsoleKept]

/-- Settles O11: `s.advancePc.halt` keeps everything but the run state and the incremented program counter, and as a
Halted state it steps to itself only. -/
theorem hltHalts : Obligations.HltHalts :=
  ⟨fun w _ => selectInstr_of_opcode_zero w, fun s =>
    ⟨s.advancePc.halt, rfl, State.halt_run _, regsKept_halt s, memKept_halt s, consoleKept_halt s,
      fun _ => step_halted (State.halt_run _)⟩⟩

end Sys2Proof.Machine
end

section
/-! # Load and store (41_load_store.md)

LDR is a result written to `dst` and STR a store after the increment. Both find their address in the incremented state,
and `State.effAddr_advancePc` says that it is the number of R100. -/

namespace Sys2Proof.Machine

/-! ### Operands -/

/-- The `dst` operand is the register that flg0 and Rn name (R82). -/
theorem dst_eq_regOf (f : Fields) : f.dst = regOf f.flg0 f.rn := by
  rw [Fields.dst, regOf]
  cases f.flg0 <;> rfl

/-- The `src` operand is the register that flg1 and Rm name (R82). -/
theorem src_eq_regOf (f : Fields) : f.src = regOf f.flg1 f.rm := by
  rw [Fields.src, regOf]
  cases f.flg1 <;> rfl

/-- flg2 chooses the addressing mode (R100). -/
theorem addrMode_eq_ite (f : Fields) :
    f.addrMode = if f.flg2 then .indirect (regOf f.flg1 f.rm) else .direct f.location := by
  rw [Fields.addrMode, src_eq_regOf]

/-- Opcode 2 is LDR (R65, R101). -/
theorem selectInstr_of_opcode_two {f : Fields} (w : Word) (hop : f.opcode = 2) :
    selectInstr w f = .ldr f.dst f.addrMode := by
  rw [selectInstr, hop]
  rfl

/-- Opcode 3 is STR (R65, R102). -/
theorem selectInstr_of_opcode_three {f : Fields} (w : Word) (hop : f.opcode = 3) :
    selectInstr w f = .str f.dst f.addrMode := by
  rw [selectInstr, hop]
  rfl

/-! ### What a load and a store leave as it was -/

/-- An instruction whose cycle is `writeResult` changes its destination and the incremented program counter only (R83). -/
theorem onlyRegWritten_writeResult (s : State) (dst : Reg) (value : State → Word) :
    OnlyRegWritten s (s.writeResult dst value) dst where
  regs r hr := by
    have hne : r ≠ dst := fun e => hr (congrArg some e.symm)
    rw [State.readReg_writeResult, if_neg hne]
  mem b := by rw [State.writeResult_mem]
  run := State.writeResult_run s dst value
  console := by simp [ConsoleKept]

/-- Writing a word leaves every byte outside it as it was (R45). -/
theorem Memory.readByte_writeWord_outside (m : Memory) (a : Addr) (v : Word) {b : Nat}
    (hb : b < 4 * a.toNat ∨ 4 * a.toNat + 4 ≤ b) : (m.writeWord a v).readByte b = m.readByte b := by
  have h0 : b ≠ 4 * a.toNat := by omega
  have h1 : b ≠ 4 * a.toNat + 1 := by omega
  have h2 : b ≠ 4 * a.toNat + 2 := by omega
  have h3 : b ≠ 4 * a.toNat + 3 := by omega
  rw [Memory.readByte_writeWord, if_neg h3, if_neg h2, if_neg h1, if_neg h0]

/-- A store after the increment leaves every byte outside its word as it was (R102). -/
theorem memKeptOutside_store (s : State) (a : Addr) (v : Word) :
    MemKeptOutside s (s.advancePc.storeWord a v) a := fun b hb => by
  rw [State.storeWord_mem, State.advancePc_mem, Memory.readByte_writeWord_outside s.mem a v hb]

/-- A store writes no register; the increment was the fetch phase's (R102). -/
theorem regsKept_store (s : State) (a : Addr) (v : Word) :
    RegsKept s (s.advancePc.storeWord a v) none := fun r _ => by
  rw [State.readReg_storeWord, State.readReg_advancePc_operand]

/-- A store exchanges nothing with the console (R102). -/
theorem consoleKept_store (s : State) (a : Addr) (v : Word) :
    ConsoleKept s (s.advancePc.storeWord a v) := by
  simp [ConsoleKept]

/-! ### The word loaded and the word stored -/

/-- The address of LDR and STR, as a 16-bit value, is the number of R100. -/
theorem State.effAddr_advancePc_eq_ofNat (s : State) (ea : AddrMode) :
    s.advancePc.effAddr ea = BitVec.ofNat 16 (addressOf s ea) :=
  BitVec.eq_of_toNat_eq <| by
    rw [← State.effAddr_advancePc, BitVec.ofNat_toNat, BitVec.setWidth_eq]

/-- LDR leaves in `dst` the word at its address, read from the memory before the cycle; the address is from the old
register value even where `dst` is `src` (R101 corner case (a)). -/
theorem exec_ldr_readReg_dst {s t : State} {dst : Reg} {ea : AddrMode} (h : exec (.ldr dst ea) s = .next t) :
    t.readReg dst = s.mem.readWord (BitVec.ofNat 16 (addressOf s ea)) := by
  cases h
  rw [State.readReg_writeResult, if_pos rfl, State.advancePc_mem, State.effAddr_advancePc_eq_ofNat]

/-- The word a store writes is the operand's value, the incremented program counter for `system[0]` (R102 corner
case (a)). -/
theorem readWord_store (s : State) (a : Addr) (dst : Reg) :
    (s.advancePc.storeWord a (s.advancePc.readReg dst)).mem.readWord a = operandValue s dst := by
  rw [State.storeWord_mem, Memory.readWord_writeWord, if_pos rfl, State.readReg_advancePc_operand]

/-! ### Memory is changed by STR only -/

/-- Of the shapes of a cycle only STR's changes memory (R103). -/
theorem Effect.mem_eq {s t : State} {i : Instr} (h : Effect s i t) (hstr : ∀ dst ea, i ≠ .str dst ea) :
    t.mem = s.mem := by
  cases h with
  | store dst ea => exact absurd rfl (hstr dst ea)
  | halt | write | hold | input | output | unrecognized => rfl
  | always | ifZero | ifNonNegative => exact State.branchIf_mem s _ _

/-- A step that does not execute STR keeps the memory, on a Halted engine too (R28, R103). -/
theorem step_mem_eq {s t : State} (h : step s = .next t) (hstr : ∀ dst ea, decode s.fetchWord ≠ .str dst ea) :
    t.mem = s.mem := by
  obtain ⟨-, rfl⟩ | ⟨-, hexec⟩ := step_cases s t h
  · rfl
  · exact (exec_effect hexec).mem_eq hstr

/-! ### The obligations -/

/-- Settles O13: LDR is the `writeResult` shape with the word at the address of R100 as its value. -/
theorem ldrLoadsWord : Obligations.LdrLoadsWord := by
  refine ⟨fun w f hop => ?_, fun dst ea s => ⟨_, rfl, exec_ldr_readReg_dst rfl, onlyRegWritten_writeResult s dst _⟩⟩
  rw [selectInstr_of_opcode_two w hop, dst_eq_regOf, addrMode_eq_ite]

/-- Settles O14: STR is a store to the address of R100 after the increment, and the store changes one word only. -/
theorem strStoresWord : Obligations.StrStoresWord := by
  refine ⟨fun w f hop => ?_, fun dst ea s => ⟨_, rfl, s.effAddr_advancePc ea, ?_⟩⟩
  · rw [selectInstr_of_opcode_three w hop, dst_eq_regOf, addrMode_eq_ite]
  · rintro a rfl
    exact ⟨readWord_store s _ dst, memKeptOutside_store s _ _, regsKept_store s _ _, rfl, consoleKept_store s _ _⟩

/-- Settles O35: equal memories read the same at every byte. -/
theorem memoryChangedOnlyByStr : Obligations.MemoryChangedOnlyByStr := fun s t h hstr => by
  have hmem : t.mem = s.mem := step_mem_eq h hstr
  exact ⟨hmem, fun b => by rw [hmem]⟩

end Sys2Proof.Machine
end

section
/-! # Copy instructions (43_copy.md)

CPR and CPV are both a result written to `dst` and differ in the value: the source register after the increment, or the
location field zero-extended. -/

namespace Sys2Proof.Machine

/-- A result written to `dst` reads back as the value computed in the incremented state (R83). -/
@[simp] theorem State.readReg_writeResult_same (s : State) (dst : Reg) (value : State → Word) :
    (s.writeResult dst value).readReg dst = value s.advancePc := by
  rw [State.readReg_writeResult, if_pos rfl]

/-! ### CPR -/

/-- Opcode 6 is CPR (R65, R120). -/
theorem selectInstr_of_opcode_six {f : Fields} (w : Word) (hop : f.opcode = 6) :
    selectInstr w f = .cpr f.dst f.src := by
  rw [selectInstr, hop]
  rfl

/-- CPR leaves in `dst` all 32 bits of `src`, the incremented program counter for `system[0]` (R120 corner
case (b)). -/
theorem exec_cpr_readReg_dst {s t : State} {dst src : Reg} (h : exec (.cpr dst src) s = .next t) :
    t.readReg dst = operandValue s src := by
  cases h
  rw [State.readReg_writeResult_same, State.readReg_advancePc_operand]

/-! ### CPV -/

/-- Opcode 7 is CPV (R65, R121). -/
theorem selectInstr_of_opcode_seven {f : Fields} (w : Word) (hop : f.opcode = 7) :
    selectInstr w f = .cpv f.dst f.location := by
  rw [selectInstr, hop]
  rfl

/-- A zero-extended 16-bit value has bit 31 clear, so its signed value is the value itself: 0xFFFF gives 65535, not -1
(R121). -/
theorem toInt_zext32 (v : BitVec 16) : (zext32 v).toInt = (v.toNat : Int) := by
  have hlt : 2 * (zext32 v).toNat < 2 ^ 32 := by
    rw [toNat_zext32]
    omega
  rw [BitVec.toInt_eq_toNat_of_lt hlt, toNat_zext32]

/-- CPV leaves in `dst` the zero-extended location (R121). -/
theorem exec_cpv_readReg_dst {s t : State} {dst : Reg} {location : BitVec 16}
    (h : exec (.cpv dst location) s = .next t) : t.readReg dst = zext32 location := by
  cases h
  rw [State.readReg_writeResult_same]

/-! ### The obligations -/

/-- Settles O18: CPR is the `writeResult` shape with the source register, read after the increment, as its value. -/
theorem cprCopiesRegister : Obligations.CprCopiesRegister := by
  refine ⟨fun w f hop => ?_, fun dst src s => ⟨_, rfl, onlyRegWritten_writeResult s dst _, exec_cpr_readReg_dst rfl⟩⟩
  rw [selectInstr_of_opcode_six w hop, dst_eq_regOf, src_eq_regOf]

/-- Settles O19: CPV is the `writeResult` shape with the zero-extended location as its value. -/
theorem cpvLoadsImmediate : Obligations.CpvLoadsImmediate := by
  refine ⟨fun w f hop => ?_, fun dst location s => ⟨_, rfl, onlyRegWritten_writeResult s dst _, ?_⟩⟩
  · rw [selectInstr_of_opcode_seven w hop, dst_eq_regOf]
  · rw [exec_cpv_readReg_dst rfl, toInt_zext32]

end Sys2Proof.Machine
end

section
/-! # Addition and subtraction (44_arithmetic_shift.md)

ADD and SUB are `alu2` with the sum and the difference of 32-bit patterns. `wrap32` is the balanced remainder modulo 2^32,
so core's facts about signed bit vectors say that these patterns, read as signed, are the wrapped mathematical results. -/

namespace Sys2Proof.Machine

/-! ### The two-operand shape -/

/-- The two-operand shape leaves in `dst` the function of the two old operand values, where `dst` is `src` too (R83). -/
@[simp] theorem State.readReg_alu2_same (s : State) (f : Word → Word → Word) (dst src : Reg) :
    (s.alu2 f dst src).readReg dst = f (operandValue s dst) (operandValue s src) := by
  rw [State.readReg_alu2, if_pos rfl]

/-- The two-operand shape changes its destination and the incremented program counter only (R83). -/
theorem onlyRegWritten_alu2 (s : State) (f : Word → Word → Word) (dst src : Reg) :
    OnlyRegWritten s (s.alu2 f dst src) dst :=
  onlyRegWritten_writeResult s dst _

/-! ### Signed values and wrapping -/

/-- `wrap32` is the balanced remainder modulo 2^32 (R8). -/
theorem wrap32_eq_bmod (n : Int) : wrap32 n = n.bmod (2 ^ 32) := by
  rw [wrap32, Int.bmod_def]
  norm_num

/-- Wrapping keeps what fits in 32 bits (R8). -/
theorem wrap32_of_fits {n : Int} (hlo : -2 ^ 31 ≤ n) (hhi : n < 2 ^ 31) : wrap32 n = n := by
  rw [wrap32]
  split
  case isTrue nonnegative => omega
  case isFalse negative => omega

/-- The sum of two patterns, read as signed, is the wrapped sum of the signed values (R131). -/
theorem toInt_add_eq_wrap32 (a b : Word) : (a + b).toInt = wrap32 (a.toInt + b.toInt) := by
  rw [BitVec.toInt_add, wrap32_eq_bmod]

/-- The difference of two patterns, read as signed, is the wrapped difference of the signed values (R132). -/
theorem toInt_sub_eq_wrap32 (a b : Word) : (a - b).toInt = wrap32 (a.toInt - b.toInt) := by
  rw [BitVec.toInt_sub, wrap32_eq_bmod]

/-- Bit 31 is the sign (R162): clear exactly for the values that are not negative. -/
theorem getLsbD_31_eq_false_iff (v : Word) : v.getLsbD 31 = false ↔ 0 ≤ v.toInt := by
  have hmsb : v.msb = v.getLsbD 31 := BitVec.msb_eq_getLsbD_last v
  rw [← hmsb, BitVec.msb_eq_toInt, decide_eq_false_iff_not, not_lt]

/-- A difference that fits has its true sign in bit 31, so the bit compares the operands (R132 corner case (d)). -/
theorem getLsbD_31_sub_eq_false_iff {a b : Word} (hlo : -2 ^ 31 ≤ a.toInt - b.toInt)
    (hhi : a.toInt - b.toInt < 2 ^ 31) : (a - b).getLsbD 31 = false ↔ b.toInt ≤ a.toInt := by
  rw [getLsbD_31_eq_false_iff, toInt_sub_eq_wrap32, wrap32_of_fits hlo hhi, sub_nonneg]

/-! ### ADD -/

/-- Opcode 8 is ADD (R65, R131). -/
theorem selectInstr_of_opcode_eight {f : Fields} (w : Word) (hop : f.opcode = 8) :
    selectInstr w f = .add f.dst f.src := by
  rw [selectInstr, hop]
  rfl

/-- ADD leaves in `dst` the sum of the two old operand patterns (R131). -/
theorem exec_add_readReg_dst {s t : State} {dst src : Reg} (h : exec (.add dst src) s = .next t) :
    t.readReg dst = operandValue s dst + operandValue s src := by
  cases h
  rw [State.readReg_alu2_same]

/-! ### SUB -/

/-- Opcode 9 is SUB (R65, R132). -/
theorem selectInstr_of_opcode_nine {f : Fields} (w : Word) (hop : f.opcode = 9) :
    selectInstr w f = .sub f.dst f.src := by
  rw [selectInstr, hop]
  rfl

/-- SUB leaves in `dst` the old pattern of `dst` minus that of `src` (R132). -/
theorem exec_sub_readReg_dst {s t : State} {dst src : Reg} (h : exec (.sub dst src) s = .next t) :
    t.readReg dst = operandValue s dst - operandValue s src := by
  cases h
  rw [State.readReg_alu2_same]

/-! ### The obligations -/

/-- Settles O20: ADD is the `alu2` shape with the sum of patterns, which is the wrapped sum signed and unsigned. -/
theorem addWritesWrappedSum : Obligations.AddWritesWrappedSum := by
  refine ⟨fun w f hop => ?_, fun dst src s => ⟨_, rfl, onlyRegWritten_alu2 s _ dst src, ?_⟩⟩
  · rw [selectInstr_of_opcode_eight w hop, dst_eq_regOf, src_eq_regOf]
  · rw [exec_add_readReg_dst rfl]
    exact ⟨toInt_add_eq_wrap32 _ _, BitVec.toNat_add _ _⟩

/-- Settles O21: SUB is the `alu2` shape with the difference of patterns, whose bit 31 is the sign of a difference that
fits. -/
theorem subWritesWrappedDifference : Obligations.SubWritesWrappedDifference := by
  refine ⟨fun w f hop => ?_, fun dst src s => ⟨_, rfl, onlyRegWritten_alu2 s _ dst src, ?_⟩⟩
  · rw [selectInstr_of_opcode_nine w hop, dst_eq_regOf, src_eq_regOf]
  · rw [exec_sub_readReg_dst rfl]
    exact ⟨toInt_sub_eq_wrap32 _ _, getLsbD_31_sub_eq_false_iff⟩

end Sys2Proof.Machine
end

section
/-! # Logic instructions (45_logic.md)

AND, ORR and XOR are `alu2` with a word operation that works bit by bit, so one lemma about that shape says what all three
do and what they leave as it was. NOT is `alu1` with the complement, and never looks at a source operand. -/

namespace Sys2Proof.Machine

/-! ### The bitwise two-operand shape -/

/-- `f` works bit by bit: bit i of its result is `op` of the bits i of its operands. -/
def Bitwise (f : Word → Word → Word) (op : Bool → Bool → Bool) : Prop :=
  ∀ a b i, (f a b).getLsbD i = op (a.getLsbD i) (b.getLsbD i)

/-- The conjunction of words works bit by bit (R145). -/
theorem bitwise_and : Bitwise (fun a b => a &&& b) Bool.and := fun _ _ _ => BitVec.getLsbD_and

/-- The inclusive or of words works bit by bit (R146). -/
theorem bitwise_or : Bitwise (fun a b => a ||| b) Bool.or := fun _ _ _ => BitVec.getLsbD_or

/-- The exclusive or of words works bit by bit (R147). -/
theorem bitwise_xor : Bitwise (fun a b => a ^^^ b) Bool.xor := fun _ _ _ => BitVec.getLsbD_xor

/-- The two-operand shape with a bitwise operation sets each bit of `dst` from the same bit of the two old operand values
and changes nothing else, where `dst` is `src` or the program counter too (45_logic.md). -/
theorem exec_bitwise {i : Instr} {s : State} {dst src : Reg} {f : Word → Word → Word} {op : Bool → Bool → Bool}
    (hf : Bitwise f op) (hexec : exec i s = .next (s.alu2 f dst src)) :
    ∃ t, exec i s = .next t ∧ OnlyRegWritten s t dst ∧ ∀ n, n < 32 →
      (t.readReg dst).getLsbD n = op ((operandValue s dst).getLsbD n) ((operandValue s src).getLsbD n) := by
  refine ⟨_, hexec, onlyRegWritten_alu2 s f dst src, fun n _ => ?_⟩
  rw [State.readReg_alu2_same, hf]

/-! ### Dispatch -/

/-- Opcode 12 is AND (R65, R145). -/
theorem selectInstr_of_opcode_twelve {f : Fields} (w : Word) (hop : f.opcode = 12) :
    selectInstr w f = .and f.dst f.src := by
  rw [selectInstr, hop]
  rfl

/-- Opcode 13 is ORR (R65, R146). -/
theorem selectInstr_of_opcode_thirteen {f : Fields} (w : Word) (hop : f.opcode = 13) :
    selectInstr w f = .orr f.dst f.src := by
  rw [selectInstr, hop]
  rfl

/-- Opcode 14 is XOR (R65, R147). -/
theorem selectInstr_of_opcode_fourteen {f : Fields} (w : Word) (hop : f.opcode = 14) :
    selectInstr w f = .xor f.dst f.src := by
  rw [selectInstr, hop]
  rfl

/-- Opcode 15 is NOT of the `dst` operand; the source fields are not looked at (R65, R148). -/
theorem selectInstr_of_opcode_fifteen {f : Fields} (w : Word) (hop : f.opcode = 15) :
    selectInstr w f = .not f.dst := by
  rw [selectInstr, hop]
  rfl

/-! ### NOT -/

/-- The one-operand shape leaves in `dst` the function of its old value (R148). -/
@[simp] theorem State.readReg_alu1_same (s : State) (f : Word → Word) (dst : Reg) :
    (s.alu1 f dst).readReg dst = f (operandValue s dst) := by
  rw [State.readReg_alu1, if_pos rfl]

/-- The one-operand shape changes its destination and the incremented program counter only (R83). -/
theorem onlyRegWritten_alu1 (s : State) (f : Word → Word) (dst : Reg) :
    OnlyRegWritten s (s.alu1 f dst) dst :=
  onlyRegWritten_writeResult s dst _

/-- NOT leaves in `dst` the complement of its old pattern (R148). -/
theorem exec_not_readReg_dst {s t : State} {dst : Reg} (h : exec (.not dst) s = .next t) :
    t.readReg dst = ~~~ operandValue s dst := by
  cases h
  rw [State.readReg_alu1_same]

/-- The complement, read as signed, is minus the value minus one, without wrapping: of a word and its complement exactly
one is negative (R148). -/
theorem toInt_not_eq_neg_sub_one (v : Word) : (~~~ v).toInt = -v.toInt - 1 := by
  have hv : v.toNat < 2 ^ 32 := v.isLt
  rw [BitVec.toInt_eq_toNat_cond, BitVec.toInt_eq_toNat_cond, BitVec.toNat_not]
  by_cases hnonneg : 2 * v.toNat < 2 ^ 32
  · have hneg : ¬ 2 * (2 ^ 32 - 1 - v.toNat) < 2 ^ 32 := by omega
    rw [if_neg hneg, if_pos hnonneg]
    omega
  · have hnonneg' : 2 * (2 ^ 32 - 1 - v.toNat) < 2 ^ 32 := by omega
    rw [if_pos hnonneg', if_neg hnonneg]
    omega

/-- Every bit of a word is flipped by the complement (R148). -/
theorem getLsbD_not_of_lt (v : Word) {i : Nat} (hi : i < 32) : (~~~ v).getLsbD i = !v.getLsbD i := by
  rw [BitVec.getLsbD_not, decide_eq_true hi, Bool.true_and]

/-! ### The obligations -/

/-- Settles O25: AND is the bitwise shape with the conjunction. -/
theorem andIsBitwise : Obligations.AndIsBitwise := by
  refine ⟨fun w f hop => ?_, fun dst src s => exec_bitwise bitwise_and rfl⟩
  rw [selectInstr_of_opcode_twelve w hop, dst_eq_regOf, src_eq_regOf]

/-- Settles O26: ORR is the bitwise shape with the inclusive or. -/
theorem orrIsBitwise : Obligations.OrrIsBitwise := by
  refine ⟨fun w f hop => ?_, fun dst src s => exec_bitwise bitwise_or rfl⟩
  rw [selectInstr_of_opcode_thirteen w hop, dst_eq_regOf, src_eq_regOf]

/-- Settles O27: XOR is the bitwise shape with the exclusive or. -/
theorem xorIsBitwise : Obligations.XorIsBitwise := by
  refine ⟨fun w f hop => ?_, fun dst src s => exec_bitwise bitwise_xor rfl⟩
  rw [selectInstr_of_opcode_fourteen w hop, dst_eq_regOf, src_eq_regOf]

/-- Settles O28: NOT is the `alu1` shape with the complement, which flips every bit and is `-v - 1` read as signed. -/
theorem notComplementsDestination : Obligations.NotComplementsDestination := by
  refine ⟨fun w f hop => ?_, fun dst s => ⟨_, rfl, onlyRegWritten_alu1 s _ dst, ?_⟩⟩
  · rw [selectInstr_of_opcode_fifteen w hop, dst_eq_regOf]
  · rw [exec_not_readReg_dst rfl]
    exact ⟨toInt_not_eq_neg_sub_one _, fun _ => getLsbD_not_of_lt _⟩

end Sys2Proof.Machine
end

section
/-! # Branches (46_branch.md)

BRA, BRZ and BRP are all `branchIf` and differ in the condition: none, or a test of one register's value after the
increment. Only the program counter is written, by the fetch phase or by the branch taken. -/

namespace Sys2Proof.Machine

/-! ### The branch shape -/

/-- The program counter operand is the incremented value (R25). -/
@[simp] theorem operandValue_pc (s : State) : operandValue s Reg.pc = pcAfterFetch s :=
  if_pos rfl

/-- The branch shape leaves in the program counter the target or the incremented value (R25, R160 to R162). -/
theorem State.pc_branchIf (s : State) (cond : State → Bool) (location : BitVec 16) :
    (s.branchIf cond location).pc = if cond s.advancePc = true then zext32 location else pcAfterFetch s := by
  rw [State.pc, State.readReg_branchIf, operandValue_pc]
  simp only [and_true]

/-- The branch shape changes the program counter only, taken or not (R160 to R162). -/
theorem onlyRegWritten_branchIf (s : State) (cond : State → Bool) (location : BitVec 16) :
    OnlyRegWritten s (s.branchIf cond location) Reg.pc where
  regs r hr := by
    have hne : r ≠ Reg.pc := fun e => hr (congrArg some e.symm)
    rw [State.readReg_branchIf, if_neg fun taken => hne taken.2]
  mem b := by rw [State.branchIf_mem]
  run := State.branchIf_run s cond location
  console := by simp [ConsoleKept]

/-! ### The two tests -/

/-- Every bit is 0 exactly when the value is 0 (R161). -/
theorem isZero_iff_toInt_eq_zero (v : Word) : isZero v = true ↔ v.toInt = 0 := by
  have hzero : (0 : Word).toInt = 0 := BitVec.toInt_zero
  rw [isZero, beq_iff_eq, ← BitVec.toInt_inj, hzero]

/-- Bit 31 is clear exactly when the signed value is not negative, zero included (R162). -/
theorem isNonNegative_iff_toInt_nonneg (v : Word) : isNonNegative v = true ↔ 0 ≤ v.toInt := by
  rw [isNonNegative, Bool.not_eq_true', getLsbD_31_eq_false_iff]

/-! ### BRA -/

/-- Opcode 16 is BRA of the location; the flag bits and register fields are not looked at (R65, R160). -/
theorem selectInstr_of_opcode_sixteen {f : Fields} (w : Word) (hop : f.opcode = 16) :
    selectInstr w f = .bra f.location := by
  rw [selectInstr, hop]
  rfl

/-- BRA leaves the target in the program counter (R160). -/
theorem exec_bra_pc {s t : State} {location : BitVec 16} (h : exec (.bra location) s = .next t) :
    t.pc = zext32 location := by
  cases h
  rw [State.pc_branchIf, if_pos rfl]

/-! ### BRZ -/

/-- Opcode 18 is BRZ (R65, R161). -/
theorem selectInstr_of_opcode_eighteen {f : Fields} (w : Word) (hop : f.opcode = 18) :
    selectInstr w f = .brz f.dst f.location := by
  rw [selectInstr, hop]
  rfl

/-- BRZ tests the value of `dst`, the incremented program counter for `system[0]` (R161). -/
theorem exec_brz_pc {s t : State} {dst : Reg} {location : BitVec 16} (h : exec (.brz dst location) s = .next t) :
    t.pc = if (operandValue s dst).toInt = 0 then zext32 location else pcAfterFetch s := by
  cases h
  rw [State.pc_branchIf, State.readReg_advancePc_operand]
  simp only [isZero_iff_toInt_eq_zero]

/-! ### BRP -/

/-- Opcode 19 is BRP (R65, R162). -/
theorem selectInstr_of_opcode_nineteen {f : Fields} (w : Word) (hop : f.opcode = 19) :
    selectInstr w f = .brp f.dst f.location := by
  rw [selectInstr, hop]
  rfl

/-- BRP tests the sign of `dst`, of the incremented program counter for `system[0]` (R162). -/
theorem exec_brp_pc {s t : State} {dst : Reg} {location : BitVec 16} (h : exec (.brp dst location) s = .next t) :
    t.pc = if 0 ≤ (operandValue s dst).toInt then zext32 location else pcAfterFetch s := by
  cases h
  rw [State.pc_branchIf, State.readReg_advancePc_operand]
  simp only [isNonNegative_iff_toInt_nonneg]

/-! ### The obligations -/

/-- Settles O29: BRA is the branch shape with a condition that always holds. -/
theorem braJumpsToLocation : Obligations.BraJumpsToLocation := by
  refine ⟨fun w f => selectInstr_of_opcode_sixteen w, fun location s => ⟨_, rfl, onlyRegWritten_branchIf s _ _, ?_⟩⟩
  rw [exec_bra_pc rfl, toNat_zext32]

/-- Settles O30: BRZ is the branch shape with the test for zero, which its two cases decide. -/
theorem brzBranchesOnZero : Obligations.BrzBranchesOnZero := by
  refine ⟨fun w f hop => ?_, fun dst location s =>
    ⟨_, rfl, onlyRegWritten_branchIf s _ _, fun hzero => ?_, fun hnonzero => ?_⟩⟩
  · rw [selectInstr_of_opcode_eighteen w hop, dst_eq_regOf]
  · rw [exec_brz_pc rfl, if_pos hzero, toNat_zext32]
  · rw [exec_brz_pc rfl, if_neg hnonzero]

/-- Settles O31: BRP is the branch shape with the test of bit 31, the sign of `dst`. -/
theorem brpBranchesOnNonNegative : Obligations.BrpBranchesOnNonNegative := by
  refine ⟨fun w f hop => ?_, fun dst location s =>
    ⟨_, rfl, onlyRegWritten_branchIf s _ _, fun hnonneg => ?_, fun hneg => ?_⟩⟩
  · rw [selectInstr_of_opcode_nineteen w hop, dst_eq_regOf]
  · rw [exec_brp_pc rfl, if_pos hnonneg, toNat_zext32]
  · rw [exec_brp_pc rfl, if_neg (not_le.mpr hneg)]

end Sys2Proof.Machine
end

section
/-! # The canonical memory (20_memory.md section 1; log 8)

A canonical list is determined by what its bytes read, because it lists strictly rising byte numbers and no byte that reads
as an unlisted one; and a byte is a quarter of a word. So the list holds the 65536 words of R29 and nothing more. -/

namespace Sys2Proof.Machine

/-! ### Every step keeps the canonical form -/

/-- Of the shapes of a cycle only STR's changes memory, and writing a word keeps the canonical form. -/
theorem Effect.canonicalMem {s t : State} {i : Instr} (h : Effect s i t) (hs : CanonicalMem s) : CanonicalMem t := by
  cases h with
  | store dst ea => exact Memory.wf_writeWord _ _ hs
  | halt | write | hold | input | output | unrecognized => exact hs
  | always | ifZero | ifNonNegative => rwa [CanonicalMem, State.branchIf_mem]

/-- Every step keeps the canonical form, a Halted engine's too. -/
theorem step_canonicalMem {s t : State} (hs : CanonicalMem s) (h : step s = .next t) : CanonicalMem t := by
  obtain ⟨-, rfl⟩ | ⟨-, hexec⟩ := step_cases s t h
  · exact hs
  · exact (exec_effect hexec).canonicalMem hs

/-! ### A canonical list is determined by its bytes -/

/-- The canonical form of a list with a first cell, said once. -/
theorem Memory.wfFrom_cons {lo k : Nat} {v : Byte} {rest : Memory} : Memory.wfFrom lo ((k, v) :: rest) = true ↔
    lo ≤ k ∧ k < Memory.size ∧ v ≠ Memory.unlisted ∧ Memory.wfFrom (k + 1) rest = true := by
  simp [Memory.wfFrom, and_assoc]

/-- The first cell's byte. -/
theorem Memory.readByte_cons_same (k : Nat) (v : Byte) (rest : Memory) : Memory.readByte ((k, v) :: rest) k = v :=
  if_pos rfl

/-- Every other byte is read in the rest of the list. -/
theorem Memory.readByte_cons_of_ne {k b : Nat} (v : Byte) (rest : Memory) (h : k ≠ b) :
    Memory.readByte ((k, v) :: rest) b = rest.readByte b :=
  if_neg h

/-- Below its bound a canonical list lists no byte. -/
theorem Memory.readByte_of_lt {lo b : Nat} {m : Memory} (hm : Memory.wfFrom lo m = true) (hb : b < lo) :
    m.readByte b = Memory.unlisted := by
  induction m generalizing lo with
  | nil => rfl
  | cons cell rest ih =>
    obtain ⟨k, v⟩ := cell
    obtain ⟨hlo, -, -, hrest⟩ := Memory.wfFrom_cons.mp hm
    rw [Memory.readByte_cons_of_ne v rest (by omega), ih hrest (by omega)]

/-- Beyond the end of memory a canonical list lists no byte. -/
theorem Memory.readByte_of_size_le {lo b : Nat} {m : Memory} (hm : Memory.wfFrom lo m = true) (hb : Memory.size ≤ b) :
    m.readByte b = Memory.unlisted := by
  induction m generalizing lo with
  | nil => rfl
  | cons cell rest ih =>
    obtain ⟨k, v⟩ := cell
    obtain ⟨-, hsize, -, hrest⟩ := Memory.wfFrom_cons.mp hm
    rw [Memory.readByte_cons_of_ne v rest (by omega), ih hrest]

/-- A canonical list that starts at byte `k` differs there from a list that is canonical above `k`. -/
theorem Memory.readByte_ne_of_wfFrom_succ {k : Nat} {v : Byte} {rest m : Memory} (hv : v ≠ Memory.unlisted)
    (hm : Memory.wfFrom (k + 1) m = true) : Memory.readByte ((k, v) :: rest) k ≠ m.readByte k := by
  rwa [Memory.readByte_cons_same, Memory.readByte_of_lt hm k.lt_succ_self]

/-- Canonical lists that read equal at every byte are equal: the lower of two different first cells would read as
unlisted in the other list. -/
theorem Memory.eq_of_readByte_eq {lo : Nat} {m n : Memory} (hm : Memory.wfFrom lo m = true)
    (hn : Memory.wfFrom lo n = true) (h : ∀ b, m.readByte b = n.readByte b) : m = n := by
  induction m generalizing lo n with
  | nil =>
    cases n with
    | nil => rfl
    | cons cell rest =>
      obtain ⟨-, -, hv, -⟩ := Memory.wfFrom_cons.mp hn
      exact absurd (h cell.1).symm (Memory.readByte_ne_of_wfFrom_succ hv rfl)
  | cons cell rest ih =>
    obtain ⟨k, v⟩ := cell
    obtain ⟨hlo, hsize, hv, hrest⟩ := Memory.wfFrom_cons.mp hm
    cases n with
    | nil => exact absurd (h k) (Memory.readByte_ne_of_wfFrom_succ hv rfl)
    | cons cell' rest' =>
      obtain ⟨k', v'⟩ := cell'
      obtain ⟨hlo', hsize', hv', hrest'⟩ := Memory.wfFrom_cons.mp hn
      obtain hlt | rfl | hgt := lt_trichotomy k k'
      · exact absurd (h k) (Memory.readByte_ne_of_wfFrom_succ hv (Memory.wfFrom_cons.mpr ⟨hlt, hsize', hv', hrest'⟩))
      · have hvv : v = v' := by
          simpa only [Memory.readByte_cons_same] using h k
        have hrr : ∀ b, Memory.readByte rest b = Memory.readByte rest' b := fun b => by
          by_cases hb : k = b
          · subst hb
            rw [Memory.readByte_of_lt hrest k.lt_succ_self, Memory.readByte_of_lt hrest' k.lt_succ_self]
          · simpa only [Memory.readByte_cons_of_ne _ _ hb] using h b
        rw [hvv, ih hrest hrest' hrr]
      · exact absurd (h k').symm
          (Memory.readByte_ne_of_wfFrom_succ hv' (Memory.wfFrom_cons.mpr ⟨hgt, hsize, hv, hrest⟩))

/-! ### Bytes and words -/

/-- The value of a word put together from four bytes, the lowest first (R42, D8). -/
theorem toNat_wordOfBytes (b0 b1 b2 b3 : Byte) : (b3 ++ b2 ++ b1 ++ b0).toNat =
    b0.toNat + 256 * b1.toNat + 65536 * b2.toNat + 16777216 * b3.toNat := by
  simp only [BitVec.toNat_append, ← Nat.shiftLeft_add_eq_or_of_lt (BitVec.isLt _)]
  simp only [Nat.shiftLeft_eq]
  omega

/-- Equal words have equal bytes: a byte is a digit of the word in base 256. -/
theorem Memory.readByte_eq_of_readWord_eq {m n : Memory} {a : Addr} (h : m.readWord a = n.readWord a) {i : Nat}
    (hi : i < 4) : m.readByte (4 * a.toNat + i) = n.readByte (4 * a.toNat + i) := by
  have hval := congrArg BitVec.toNat h
  rw [Memory.readWord, Memory.readWord, toNat_wordOfBytes, toNat_wordOfBytes] at hval
  apply BitVec.eq_of_toNat_eq
  match i, hi with
  | 0, _ => rw [Nat.add_zero]; omega
  | 1, _ | 2, _ | 3, _ => omega

/-- Canonical memories that read equal at every word address read equal at every byte: inside memory by the word the
byte lies in, beyond it because nothing is listed there. -/
theorem Memory.readByte_eq_of_words {m n : Memory} (hm : m.wf = true) (hn : n.wf = true)
    (h : ∀ a, m.readWord a = n.readWord a) (b : Nat) : m.readByte b = n.readByte b := by
  by_cases hb : b < Memory.size
  · have hsize : Memory.size = 262144 := rfl
    have haddr : (BitVec.ofNat 16 (b / 4)).toNat = b / 4 := by
      rw [BitVec.toNat_ofNat]
      omega
    have hbyte := Memory.readByte_eq_of_readWord_eq (h (BitVec.ofNat 16 (b / 4))) (Nat.mod_lt b (by decide : 4 > 0))
    rwa [haddr, Nat.div_add_mod] at hbyte
  · rw [Memory.readByte_of_size_le hm (not_lt.mp hb), Memory.readByte_of_size_le hn (not_lt.mp hb)]

/-! ### The obligations -/

/-- Settles O3: of the shapes of a cycle only STR's changes memory, by `writeWord`. -/
theorem stepKeepsMemoryCanonical : Obligations.StepKeepsMemoryCanonical := fun _ _ => step_canonicalMem

/-- Settles O4: words determine the bytes, and bytes determine a canonical list. -/
theorem canonicalMemoriesEqualByWords : Obligations.CanonicalMemoriesEqualByWords := fun _ _ hm hn h =>
  Memory.eq_of_readByte_eq hm hn (Memory.readByte_eq_of_words hm hn h)

/-- Settles O2: the memory after reset lists nothing. -/
theorem resetMemoryIsCanonical : Obligations.ResetMemoryIsCanonical := rfl

end Sys2Proof.Machine
end

section
/-! # Round trips of the encoding (30_encoding.md sections 2 and 4)

The fields tile a word, so each field is read back from the sum of R63 by its position; the operands of an instruction are
read back from its canonical fields (D14), and dispatch is on the opcode those fields carry. -/

namespace Sys2Proof

open Laws Machine

/-! ### Fields -/

/-- A bit of a word, as a digit of its value. -/
theorem toNat_getLsbD (w : Word) (i : Nat) : (w.getLsbD i).toNat = w.toNat / 2 ^ i % 2 := by
  rw [BitVec.getLsbD, Nat.toNat_testBit]

/-- The decoder of fields undoes the encoder of field records (R62, R63). -/
theorem decodeFields_encodeFields (f : Fields) : decodeFields (encodeFields f) = f := by
  have h0 : f.flg0.toNat ≤ 1 := Bool.toNat_le f.flg0
  have h1 : f.flg1.toNat ≤ 1 := Bool.toNat_le f.flg1
  have h2 : f.flg2.toNat ≤ 1 := Bool.toNat_le f.flg2
  have ho := f.opcode.isLt
  have hn := f.rn.isLt
  have hm := f.rm.isLt
  have hl := f.location.isLt
  have hflg (i : Nat) (flg : Bool) (h : (encodeFields f).toNat / 2 ^ i % 2 = flg.toNat) :
      (encodeFields f).getLsbD i = flg := by
    rw [Bool.eq_iff_iff, ← Bool.toNat_eq_one, ← Bool.toNat_eq_one, toNat_getLsbD, h]
  have hbits (start len : Nat) (x : BitVec len) (h : (encodeFields f).toNat / 2 ^ start % 2 ^ len = x.toNat) :
      (encodeFields f).extractLsb' start len = x :=
    BitVec.eq_of_toNat_eq (by rw [BitVec.extractLsb'_toNat, Nat.shiftRight_eq_div_pow, h])
  rw [toNat_encodeFields] at hflg hbits
  rw [decodeFields, hflg flg0Bit f.flg0 (by rw [flg0Bit]; omega), hflg flg1Bit f.flg1 (by rw [flg1Bit]; omega),
    hflg flg2Bit f.flg2 (by rw [flg2Bit]; omega), hbits 24 5 f.opcode (by omega), hbits 20 4 f.rn (by omega),
    hbits 16 4 f.rm (by omega), hbits 0 16 f.location (by omega)]

/-! ### Operands -/

/-- The flag of a bank selects it (R64, R82). -/
@[simp] theorem Bank.ofFlag_flag (b : Bank) : Bank.ofFlag b.flag = b := by
  cases b with
  | general | system => rfl

/-- The canonical fields name the `dst` operand (R82). -/
@[simp] theorem Fields.dst_dstFields (op : BitVec 5) (dst : Reg) (location : BitVec 16) :
    (dstFields op dst location).dst = dst := by
  simp [Fields.dst, dstFields]

/-- The canonical fields with a source name the `dst` operand (R82). -/
@[simp] theorem Fields.dst_dstSrcFields (op : BitVec 5) (dst src : Reg) : (dstSrcFields op dst src).dst = dst := by
  simp [Fields.dst, dstSrcFields, dstFields]

/-- The canonical fields with a source name the `src` operand (R82). -/
@[simp] theorem Fields.src_dstSrcFields (op : BitVec 5) (dst src : Reg) : (dstSrcFields op dst src).src = src := by
  simp [Fields.src, dstSrcFields]

/-- The canonical fields of LDR and STR name the `dst` operand (R82). -/
@[simp] theorem Fields.dst_memFields (op : BitVec 5) (dst : Reg) (ea : AddrMode) : (memFields op dst ea).dst = dst := by
  cases ea with
  | direct location => exact Fields.dst_dstFields op dst location
  | indirect src => exact Fields.dst_dstSrcFields op dst src

/-- The canonical fields of LDR and STR name the address operand (R100). -/
@[simp] theorem Fields.addrMode_memFields (op : BitVec 5) (dst : Reg) (ea : AddrMode) :
    (memFields op dst ea).addrMode = ea := by
  cases ea with
  | direct location => rfl
  | indirect src => exact congrArg AddrMode.indirect (Fields.src_dstSrcFields op dst src)

/-- The opcode of the canonical fields of LDR and STR. -/
@[simp] theorem Fields.opcode_memFields (op : BitVec 5) (dst : Reg) (ea : AddrMode) :
    (memFields op dst ea).opcode = op := by
  cases ea with
  | direct | indirect => rfl

/-! ### Instructions -/

/-- A word decodes to what dispatch selects for its opcode field. -/
theorem decode_of_opcodeField {w : Word} {op : BitVec 5} {i : Instr}
    (hsel : ∀ f : Fields, f.opcode = op → selectInstr w f = i) (hop : opcodeField w = op) : decode w = i :=
  hsel (decodeFields w) hop

section
variable {op : BitVec 5}

/-- A row with a `dst` operand only: INP, OUT and NOT. -/
theorem decode_encodeFields_dst {row : Reg → Instr} (hsel : ∀ w f, f.opcode = op → selectInstr w f = row f.dst)
    (dst : Reg) : decode (encodeFields (dstFields op dst)) = row dst := by
  rw [decode, decodeFields_encodeFields, hsel _ _ rfl, Fields.dst_dstFields]

/-- A row with a `dst` operand and a location: CPV, BRZ and BRP. -/
theorem decode_encodeFields_dst_location {row : Reg → BitVec 16 → Instr}
    (hsel : ∀ w f, f.opcode = op → selectInstr w f = row f.dst f.location) (dst : Reg) (location : BitVec 16) :
    decode (encodeFields (dstFields op dst location)) = row dst location := by
  rw [decode, decodeFields_encodeFields, hsel _ _ rfl, Fields.dst_dstFields]
  rfl

/-- A row with a `dst` and a `src` operand: CPR and the instructions that compute from two registers. -/
theorem decode_encodeFields_dst_src {row : Reg → Reg → Instr}
    (hsel : ∀ w f, f.opcode = op → selectInstr w f = row f.dst f.src) (dst src : Reg) :
    decode (encodeFields (dstSrcFields op dst src)) = row dst src := by
  rw [decode, decodeFields_encodeFields, hsel _ _ rfl, Fields.dst_dstSrcFields, Fields.src_dstSrcFields]

/-- A row with a `dst` and an address operand: LDR and STR. -/
theorem decode_encodeFields_dst_addrMode {row : Reg → AddrMode → Instr}
    (hsel : ∀ w f, f.opcode = op → selectInstr w f = row f.dst f.addrMode) (dst : Reg) (ea : AddrMode) :
    decode (encodeFields (memFields op dst ea)) = row dst ea := by
  rw [decode, decodeFields_encodeFields, hsel _ _ (Fields.opcode_memFields op dst ea), Fields.dst_memFields,
    Fields.addrMode_memFields]

end

/-- Decoding undoes encoding: dispatch selects the row of the canonical opcode, and the row's operands are read back from
the canonical fields; an unassigned opcode carries its own word (R65, R82, R85, R100). -/
theorem decode_encode {i : Instr} (hi : i.wellFormed = true) : decode (encode i) = i := by
  cases i with
  | hlt =>
    rw [encode, decode, decodeFields_encodeFields, selectInstr_of_opcode_zero _ rfl]
  | bra location =>
    rw [encode, decode, decodeFields_encodeFields, selectInstr_of_opcode_sixteen _ rfl]
  | inp | out | not =>
    exact decode_encodeFields_dst (fun _ _ hop => by rw [selectInstr, hop]; rfl) _
  | cpv | brz | brp =>
    exact decode_encodeFields_dst_location (fun _ _ hop => by rw [selectInstr, hop]; rfl) _ _
  | cpr | add | sub | lsl | lsr | and | orr | xor =>
    exact decode_encodeFields_dst_src (fun _ _ hop => by rw [selectInstr, hop]; rfl) _ _
  | ldr | str =>
    exact decode_encodeFields_dst_addrMode (fun _ _ hop => by rw [selectInstr, hop]; rfl) _ _
  | unassigned01 | unassigned17 | unassigned20 | unassigned21 | unassigned22 | unassigned23 | unassigned24
  | unassigned25 | unassigned26 | unassigned27 | unassigned28 | unassigned29 | unassigned30 | unassigned31 =>
    exact decode_of_opcodeField (fun _ hop => by rw [selectInstr, hop]; rfl) (eq_of_beq hi)

/-! ### The obligations -/

/-- Settles O8, row by row of table R66. -/
theorem decodeEncodeRoundTrip : Obligations.DecodeEncodeRoundTrip := fun _ => decode_encode

/-- Settles O7: the fields tile the word, read from the word and put into it at the same positions. -/
theorem fieldsRoundTrip : Obligations.FieldsRoundTrip :=
  ⟨encodeFields_decodeFields, decodeFields_encodeFields⟩

/-- Settles O6, by evaluating the decoder on the fourteen words. -/
theorem handWrittenWordsDecode : Obligations.HandWrittenWordsDecode := by
  unfold Obligations.HandWrittenWordsDecode
  decide

end Sys2Proof
end

section
/-! # Unrecognized instructions (40_cycle_hlt_unrecognized.md section 4)

All 14 unassigned opcodes share the shape `State.unrecognized`: the common increment of R80, then the report. -/

namespace Sys2Proof.Machine

/-- An unrecognized instruction writes no register; the increment was the fetch phase's (R85). -/
theorem regsKept_unrecognized (s : State) (w : Word) : RegsKept s (s.unrecognized w) none := fun r _ =>
  s.readReg_unrecognized w r

/-- An unrecognized instruction leaves memory as it was (R85). -/
theorem memKept_unrecognized (s : State) (w : Word) : MemKept s (s.unrecognized w) := fun _ => rfl

/-- An opcode whose row is `unrecognized` reports its word and is otherwise a no-op. -/
theorem reportsAndGoesOn {k : Nat} {row : Word → Instr}
    (hsel : ∀ w f, f.opcode.toNat = k → selectInstr w f = row w)
    (hexec : ∀ w s, exec (row w) s = .next (s.unrecognized w))
    (w : Word) (s : State) : ((opcodeField w).toNat = k → decode w = row w) ∧
      ∃ t, exec (row w) s = .next t ∧ t.events = s.events ++ [.diag w] ∧ t.diagnostics = s.diagnostics ++ [w] ∧
        t.consoleOut = s.consoleOut ∧ RegsKept s t none ∧ MemKept s t ∧ t.run = s.run ∧ t.consoleIn = s.consoleIn ∧
        t.pcStoreMasked = s.pcStoreMasked :=
  ⟨fun hop => hsel w (decodeFields w) hop,
    s.unrecognized w, hexec w s, State.unrecognized_events s w, State.diagnostics_emit_diag s.advancePc w,
    State.consoleOut_emit_diag s.advancePc w, regsKept_unrecognized s w, memKept_unrecognized s w, rfl, rfl, rfl⟩

/-- Settles O12: each of the 14 rows dispatches to its constructor and executes as `State.unrecognized`. -/
theorem unassignedOpcodesReportAndGoOn : Obligations.UnassignedOpcodesReportAndGoOn := by
  intro row hrow
  fin_cases hrow
  all_goals exact reportsAndGoesOn (fun _ _ hop => by rw [selectInstr, hop]; rfl) (fun _ _ => rfl)

end Sys2Proof.Machine
end

section
/-! # Input and output (42_io.md)

INP has two cases, a console input with a first value and an empty one; OUT is a console write after the increment. The
premises speak of the input's values, and `ConsoleInput.next_of_valueAt` turns a value number 0 into a first value. -/

namespace Sys2Proof.Machine

/-! ### INP -/

/-- Opcode 4 is INP (R65, R112). -/
theorem selectInstr_of_opcode_four {f : Fields} (w : Word) (hop : f.opcode = 4) : selectInstr w f = .inp f.dst := by
  rw [selectInstr, hop]
  rfl

/-- INP takes the first value of the console input (R112). -/
theorem exec_inp_of_next {s : State} {v : Word} {rest : ConsoleInput} (hin : s.consoleIn.next = some (v, rest))
    (dst : Reg) :
    exec (.inp dst) s = .next (((s.advancePc.withConsoleIn rest).emit (.read v)).writeReg dst v) := by
  have hread : s.advancePc.consoleRead = some (v, (s.advancePc.withConsoleIn rest).emit (.read v)) :=
    (State.consoleRead_some _ _ _).mpr ⟨rest, hin, rfl⟩
  rw [exec, execInp, hread]

/-- INP on an empty console input is held: the state is as it was (R112, D10; log 10). -/
theorem exec_inp_of_empty {s : State} (hin : s.consoleIn = .empty) (dst : Reg) : exec (.inp dst) s = .next s := by
  have hread : s.advancePc.consoleRead = none := (State.consoleRead_none _).mpr hin
  rw [exec, execInp, hread]

/-- INP with a value there: `dst` gets it, the later values move up by one place, the read is recorded, and nothing else
changes (R112). -/
theorem exec_inp_of_valueAt {s : State} {v : Word} (hv : s.consoleIn.valueAt 0 = some v) (dst : Reg) :
    ∃ t, exec (.inp dst) s = .next t ∧ t.readReg dst = v ∧
      (∀ i, t.consoleIn.valueAt i = s.consoleIn.valueAt (i + 1)) ∧ t.events = s.events ++ [.read v] ∧
      RegsKept s t (some dst) ∧ MemKept s t ∧ t.run = s.run ∧ t.pcStoreMasked = s.pcStoreMasked := by
  obtain ⟨rest, hin⟩ := s.consoleIn.next_of_valueAt v hv
  obtain ⟨-, hrest⟩ := ConsoleInput.next_cases _ _ _ hin
  refine ⟨_, exec_inp_of_next hin dst, State.readReg_writeReg_same _ _ _, hrest, rfl, fun r hr => ?_, fun _ => rfl,
    rfl, rfl⟩
  have hne : r ≠ dst := fun e => hr (congrArg some e.symm)
  rw [State.readReg_writeReg_other _ _ _ _ hne, State.readReg_emit, State.readReg_withConsoleIn,
    State.readReg_advancePc_operand]

/-! ### OUT -/

/-- Opcode 5 is OUT (R65, R113). -/
theorem selectInstr_of_opcode_five {f : Fields} (w : Word) (hop : f.opcode = 5) : selectInstr w f = .out f.dst := by
  rw [selectInstr, hop]
  rfl

/-- OUT emits the value its operand is read with (R113). -/
theorem exec_out (dst : Reg) (s : State) :
    exec (.out dst) s = .next (s.advancePc.consoleWrite (operandValue s dst)) := by
  rw [← State.readReg_advancePc_operand]
  rfl

/-! ### The obligations -/

/-- Settles O15: a value number 0 is a first value, and INP takes it. -/
theorem inpTakesNextValue : Obligations.InpTakesNextValue := by
  refine ⟨fun w f hop => ?_, fun dst s v hv => exec_inp_of_valueAt hv dst⟩
  rw [selectInstr_of_opcode_four w hop, dst_eq_regOf]

/-- Settles O16: supplied to an empty input, `more` is the input, and what INP fetches and reads besides it is as before. -/
theorem inpHoldsUntilSupplied : Obligations.InpHoldsUntilSupplied := by
  intro dst s v hrun hdec hempty
  refine ⟨?_, fun more hv => ?_⟩
  · rw [step_running s hrun, hdec, exec_inp_of_empty hempty]
  · have hin : (s.supply more).consoleIn = more := by
      rw [State.supply_consoleIn, hempty, ConsoleInput.append_empty_left]
    obtain ⟨t, hexec, hdst, hrest, hevents, hregs, hmem, hrun', -⟩ :=
      exec_inp_of_valueAt (s := s.supply more) (by rw [hin, hv]) dst
    have hstep : step (s.supply more) = .next t := by
      rw [step_running (s.supply more) hrun, ← hexec, ← hdec]
      rfl
    exact ⟨t, hstep, hdst, fun i => by rw [hrest, hin], hevents, hregs, hmem, hrun'.trans hrun⟩

/-- Settles O17: OUT is a console write of the operand's value after the increment. -/
theorem outEmitsRegister : Obligations.OutEmitsRegister := by
  refine ⟨fun w f hop => ?_, fun dst s => ⟨_, exec_out dst s, State.consoleOut_emit_wrote s.advancePc _, rfl,
    State.diagnostics_emit_wrote s.advancePc _, fun r _ => ?_, fun _ => rfl, rfl, rfl, rfl⟩⟩
  · rw [selectInstr_of_opcode_five w hop, dst_eq_regOf]
  · rw [State.readReg_consoleWrite, State.readReg_advancePc_operand]

end Sys2Proof.Machine
end

section
/-! # Shifts (44_arithmetic_shift.md section 3)

LSL and LSR are `alu2` with `shiftLeft` and `shiftRight`, each a shift of the pattern for an amount in 0..31 and the free
value of D5 outside. Shifts of the pattern are multiplication and floor division of the signed value by a power of two. -/

namespace Sys2Proof.Machine

/-! ### The shifts of a pattern -/

/-- In 0..31 the left shift is the shift of the pattern (R133). -/
theorem shiftLeft_of_inRange {v k : Word} (hlo : 0 ≤ k.toInt) (hhi : k.toInt ≤ 31) : shiftLeft v k = v <<< k.toNat := by
  simp [shiftLeft, amountInRange, hlo, hhi]

/-- In 0..31 the right shift is the arithmetic shift of the pattern (R134, C5). -/
theorem shiftRight_of_inRange {v k : Word} (hlo : 0 ≤ k.toInt) (hhi : k.toInt ≤ 31) :
    shiftRight v k = v.sshiftRight k.toNat := by
  simp [shiftRight, amountInRange, hlo, hhi]

/-- Outside 0..31 an amount is not in range (R135). -/
theorem amountInRange_eq_false {k : Word} (hk : k.toInt < 0 ∨ 31 < k.toInt) : amountInRange k = false := by
  rw [amountInRange, Bool.and_eq_false_iff, decide_eq_false_iff_not, decide_eq_false_iff_not, not_le, not_le]
  exact hk

/-- Outside 0..31 the left shift is the free value (R135, D5). -/
theorem shiftLeft_of_outOfRange {v k : Word} (hk : k.toInt < 0 ∨ 31 < k.toInt) :
    shiftLeft v k = Config.shiftOor .lsl v k := by
  simp [shiftLeft, amountInRange_eq_false hk]

/-- Outside 0..31 the right shift is the free value (R135, D5). -/
theorem shiftRight_of_outOfRange {v k : Word} (hk : k.toInt < 0 ∨ 31 < k.toInt) :
    shiftRight v k = Config.shiftOor .lsr v k := by
  simp [shiftRight, amountInRange_eq_false hk]

/-- The pattern shifted left, read as signed, is the wrapped product with a power of two: the unsigned and the signed
value differ by a multiple of 2^32 (R133, D6). -/
theorem toInt_shiftLeft_eq_wrap32 (v : Word) (n : Nat) : (v <<< n).toInt = wrap32 (v.toInt * 2 ^ n) := by
  rw [BitVec.toInt_shiftLeft, wrap32_eq_bmod, BitVec.toInt_eq_toNat_bmod, Int.bmod_mul_bmod, Nat.shiftLeft_eq]
  push_cast
  rfl

/-- The pattern shifted right arithmetically, read as signed, is the quotient rounded down (R134). -/
theorem toInt_sshiftRight_eq_fdiv (v : Word) (n : Nat) : (v.sshiftRight n).toInt = Int.fdiv v.toInt (2 ^ n) := by
  rw [BitVec.toInt_sshiftRight, Int.shiftRight_eq_div_pow, Int.fdiv_eq_ediv_of_nonneg _ (by positivity)]
  push_cast
  rfl

/-- Bit i of the pattern shifted right arithmetically is bit i + n, and beyond the top bit 31 (R134). -/
theorem getLsbD_sshiftRight_of_lt (v : Word) (n : Nat) {i : Nat} (hi : i < 32) :
    (v.sshiftRight n).getLsbD i = v.getLsbD (if i + n < 32 then i + n else 31) := by
  have hmsb : v.msb = v.getLsbD 31 := BitVec.msb_eq_getLsbD_last v
  rw [BitVec.getLsbD_sshiftRight, decide_eq_false (not_le.mpr hi), Bool.not_false, Bool.true_and, hmsb, Nat.add_comm n i,
    apply_ite v.getLsbD]

/-! ### LSL and LSR -/

/-- Opcode 10 is LSL (R65, R133). -/
theorem selectInstr_of_opcode_ten {f : Fields} (w : Word) (hop : f.opcode = 10) :
    selectInstr w f = .lsl f.dst f.src := by
  rw [selectInstr, hop]
  rfl

/-- Opcode 11 is LSR (R65, R134). -/
theorem selectInstr_of_opcode_eleven {f : Fields} (w : Word) (hop : f.opcode = 11) :
    selectInstr w f = .lsr f.dst f.src := by
  rw [selectInstr, hop]
  rfl

/-- LSL leaves in `dst` the shift of its old value by the old value of `src` (R133, R135). -/
theorem exec_lsl_readReg_dst {s t : State} {dst src : Reg} (h : exec (.lsl dst src) s = .next t) :
    t.readReg dst = shiftLeft (operandValue s dst) (operandValue s src) := by
  cases h
  rw [State.readReg_alu2_same]

/-- LSR leaves in `dst` the shift of its old value by the old value of `src` (R134, R135). -/
theorem exec_lsr_readReg_dst {s t : State} {dst src : Reg} (h : exec (.lsr dst src) s = .next t) :
    t.readReg dst = shiftRight (operandValue s dst) (operandValue s src) := by
  cases h
  rw [State.readReg_alu2_same]

/-! ### The obligations -/

/-- Settles O22: LSL is the `alu2` shape with the shift of the pattern, a wrapped multiplication. -/
theorem lslShiftsLeftInRange : Obligations.LslShiftsLeftInRange := by
  refine ⟨fun w f hop => ?_, fun dst src s hlo hhi => ⟨_, rfl, onlyRegWritten_alu2 s _ dst src, ?_⟩⟩
  · rw [selectInstr_of_opcode_ten w hop, dst_eq_regOf, src_eq_regOf]
  · rw [exec_lsl_readReg_dst rfl, shiftLeft_of_inRange hlo hhi, toInt_shiftLeft_eq_wrap32]

/-- Settles O23: LSR is the `alu2` shape with the arithmetic shift of the pattern, a division rounded down. -/
theorem lsrShiftsRightArithmeticInRange : Obligations.LsrShiftsRightArithmeticInRange := by
  refine ⟨fun w f hop => ?_, fun dst src s hlo hhi => ⟨_, rfl, onlyRegWritten_alu2 s _ dst src, ?_⟩⟩
  · rw [selectInstr_of_opcode_eleven w hop, dst_eq_regOf, src_eq_regOf]
  · rw [exec_lsr_readReg_dst rfl, shiftRight_of_inRange hlo hhi]
    exact ⟨toInt_sshiftRight_eq_fdiv _ _, fun _ => getLsbD_sshiftRight_of_lt _ _⟩

/-- Settles O24: outside 0..31 both shifts are the `alu2` shape with the free value. -/
theorem shiftOutOfRangeWritesFreeValue : Obligations.ShiftOutOfRangeWritesFreeValue := by
  refine fun dst src s hk =>
    ⟨⟨_, rfl, onlyRegWritten_alu2 s _ dst src, ?_⟩, ⟨_, rfl, onlyRegWritten_alu2 s _ dst src, ?_⟩⟩
  · rw [exec_lsl_readReg_dst rfl, shiftLeft_of_outOfRange hk]
  · rw [exec_lsr_readReg_dst rfl, shiftRight_of_outOfRange hk]

end Sys2Proof.Machine
end

section
/-! # The cycle (40_cycle_hlt_unrecognized.md section 1)

Every instruction answers a next state, and the program counter after it is the incremented one but for a branch taken, a
held INP and a result written to `system[0]`. The fetch address is the low 16 bits of the program counter under both
readings of the mask. -/

namespace Sys2Proof.Machine

/-! ### No instruction faults -/

/-- Every instruction answers a next state: INP by its two cases, every other one by its arm (R175). -/
theorem exec_answers_next (i : Instr) (s : State) : ∃ t, exec i s = .next t := by
  cases i with
  | inp dst =>
    cases hin : s.consoleIn.next with
    | none => exact ⟨_, exec_inp_of_empty ((ConsoleInput.next_eq_none _).mp hin) dst⟩
    | some taken => exact ⟨_, exec_inp_of_next hin dst⟩
  | hlt | ldr | str | out | cpr | cpv | add | sub | lsl | lsr | and | orr | xor | not | bra | brz | brp => exact ⟨_, rfl⟩
  | unassigned01 | unassigned17 | unassigned20 | unassigned21 | unassigned22 | unassigned23 | unassigned24
  | unassigned25 | unassigned26 | unassigned27 | unassigned28 | unassigned29 | unassigned30 | unassigned31 =>
    exact ⟨_, rfl⟩

/-- Every step answers a next state, a Halted engine's too (R28, R175). -/
theorem step_answers_next (s : State) : ∃ t, step s = .next t := by
  cases hrun : s.run with
  | running => rw [step_running s hrun]; exact exec_answers_next _ s
  | halted => exact ⟨s, by rw [step, hrun]⟩

/-! ### The fetch address -/

/-- The fetch address is the program counter modulo 65536 (R26, R44). -/
theorem State.fetchAddr_eq_ofNat (s : State) : s.fetchAddr = BitVec.ofNat 16 (s.pc.toNat % 65536) := by
  apply BitVec.eq_of_toNat_eq
  rw [State.fetchAddr, toNat_low16, BitVec.toNat_ofNat]
  omega

/-- The incremented program counter modulo 65536, under both readings of the mask: 2^32 is a multiple of 65536 (R26). -/
theorem toNat_pcAfterFetch_mod (s : State) : (pcAfterFetch s).toNat % 65536 = (s.pc.toNat + 1) % 65536 := by
  rw [pcAfterFetch]
  cases s.pcStoreMasked with
  | true =>
    rw [if_pos rfl, BitVec.toNat_ofNat]
    omega
  | false =>
    rw [if_neg Bool.false_ne_true, BitVec.ofInt_add, BitVec.ofInt_toInt, BitVec.toNat_add]
    have hone : (BitVec.ofInt 32 1).toNat = 1 := rfl
    omega

/-! ### The program counter after an instruction -/

/-- An instruction that does not branch, is not held and does not write `system[0]` leaves the incremented program counter
(10_state.md section 3). -/
theorem Effect.pc_eq {s t : State} {i : Instr} (h : Effect s i t) (hbra : ∀ location, i ≠ .bra location)
    (hbrz : ∀ dst location, i ≠ .brz dst location) (hbrp : ∀ dst location, i ≠ .brp dst location)
    (hinp : ∀ dst, i = .inp dst → s.consoleIn ≠ .empty) (hdst : destination i ≠ some Reg.pc) : t.pc = pcAfterFetch s := by
  cases h with
  | halt | store | output | unrecognized => exact s.pc_advancePc
  | write hd value =>
    have hne : Reg.pc ≠ _ := fun e => hdst (e ▸ hd)
    rw [State.pc, State.readReg_writeResult, if_neg hne, operandValue_pc]
  | input dst v rest hin =>
    have hne : Reg.pc ≠ dst := fun e => hdst (congrArg some e.symm)
    rw [State.pc, State.readReg_writeReg_other _ _ _ _ hne]
    exact s.pc_advancePc
  | hold dst hin => exact absurd hin (hinp dst rfl)
  | always location => exact absurd rfl (hbra location)
  | ifZero dst location => exact absurd rfl (hbrz dst location)
  | ifNonNegative dst location => exact absurd rfl (hbrp dst location)

/-- A conditional value of the program counter, read as the rule writes it: the target or the incremented value. -/
theorem pc_of_branch {s t : State} {location : BitVec 16} {cond : Prop} [Decidable cond]
    (h : t.pc = if cond then zext32 location else pcAfterFetch s) :
    if cond then t.pc.toNat = location.toNat else t.pc = pcAfterFetch s := by
  by_cases hc : cond
  · rw [if_pos hc] at h ⊢
    rw [h, toNat_zext32]
  · rwa [if_neg hc] at h ⊢

/-- A pattern is 0 exactly when its signed value is. -/
theorem toInt_eq_zero_iff (v : Word) : v.toInt = 0 ↔ v = 0 := by
  rw [← isZero_iff_toInt_eq_zero, isZero, beq_iff_eq]

/-! ### A store and what reads memory after it -/

/-- An effective address is a word address (R100). -/
theorem addressOf_lt (s : State) (ea : AddrMode) : addressOf s ea < 65536 := by
  rw [← State.effAddr_advancePc]
  exact BitVec.isLt _

/-- The state after STR (R102): the operand's value stands at the address of R100. -/
theorem exec_str (dst : Reg) (ea : AddrMode) (s : State) : exec (.str dst ea) s =
    .next (s.advancePc.storeWord (BitVec.ofNat 16 (addressOf s ea)) (operandValue s dst)) := by
  rw [← State.effAddr_advancePc_eq_ofNat, ← State.readReg_advancePc_operand]
  rfl

/-- What a store leaves at the address `n`: the value stored where `n` is the address of the store, and elsewhere the old
word (R45). -/
theorem readWord_storeWord_ofNat (s : State) (v : Word) {m n : Nat} (hm : m < 65536) (hn : n < 65536) :
    (s.storeWord (BitVec.ofNat 16 m) v).mem.readWord (BitVec.ofNat 16 n) =
      if n = m then v else s.mem.readWord (BitVec.ofNat 16 n) := by
  have haddr : BitVec.ofNat 16 n = BitVec.ofNat 16 m ↔ n = m := by
    rw [← BitVec.toNat_inj, BitVec.toNat_ofNat, BitVec.toNat_ofNat, Nat.mod_eq_of_lt hm, Nat.mod_eq_of_lt hn]
  rw [State.storeWord_mem, Memory.readWord_writeWord]
  simp only [haddr]

/-! ### The obligations -/

/-- Settles O32: the machine has no error path. -/
theorem everyStepAnswersNext : Obligations.EveryStepAnswersNext := ⟨exec_answers_next, step_answers_next⟩

/-- Settles O5: the fetch address of the model is the low 16 bits of the program counter. -/
theorem stepRunsDecodedInstruction : Obligations.StepRunsDecodedInstruction := by
  intro s i hrun hdec _
  rw [step_running s hrun, State.fetchWord, State.fetchAddr_eq_ofNat, hdec]

/-- Settles O34: the zero word has opcode 0, which is HLT. -/
theorem zeroMemoryHalts : Obligations.ZeroMemoryHalts := by
  intro s hrun hword
  have hdec : decode s.fetchWord = .hlt := by
    rw [hword]
    exact selectInstr_of_opcode_zero _ rfl
  refine ⟨s.advancePc.halt, ?_, State.halt_run _, regsKept_halt s, memKept_halt s⟩
  rw [step_running s hrun, hdec]
  rfl

/-- Settles O41: the increment modulo 65536 is the same under both readings of the mask. -/
theorem sequentialFetchWraps : Obligations.SequentialFetchWraps := by
  intro s t hpc
  have hmod := toNat_pcAfterFetch_mod s
  rw [State.fetchAddr, State.fetchAddr, toNat_low16, toNat_low16, hpc]
  omega

/-- Settles O40: the branches by their own equations, every other instruction by the shape of its cycle. -/
theorem everyWayThePcChanges : Obligations.EveryWayThePcChanges := by
  intro s t hrun h
  rw [step_running s hrun] at h
  refine ⟨fun location hdec => ?_, fun dst location hdec => ?_, fun dst location hdec => ?_, fun dst hdec hin => ?_,
    fun hbra hbrz hbrp hinp hdst => (exec_effect h).pc_eq hbra hbrz hbrp hinp hdst⟩
  · rw [exec_bra_pc (hdec ▸ h), toNat_zext32]
  · simp only [← toInt_eq_zero_iff]
    exact pc_of_branch (exec_brz_pc (hdec ▸ h))
  · exact pc_of_branch (exec_brp_pc (hdec ▸ h))
  · rw [hdec, exec_inp_of_empty hin] at h
    exact (Host.Outcome.next.inj h).symm

/-- Settles O37: LDR reads the memory STR leaves, which holds the value stored at one address. -/
theorem loadReturnsLastStore : Obligations.LoadReturnsLastStore := by
  intro s dst ea dst' ea'
  refine ⟨_, _, exec_str dst ea s, rfl, ?_⟩
  rw [exec_ldr_readReg_dst rfl, readWord_storeWord_ofNat _ _ (addressOf_lt s ea) (addressOf_lt _ ea'),
    State.advancePc_mem]

/-- Settles O38: the next fetch reads the memory STR leaves. -/
theorem storeSeenByNextFetch : Obligations.StoreSeenByNextFetch := by
  intro s dst ea hrun hdec
  refine ⟨_, by rw [step_running s hrun, hdec, exec_str], fun haddr => ?_⟩
  generalize ht : s.advancePc.storeWord (BitVec.ofNat 16 (addressOf s ea)) (operandValue s dst) = t at haddr
  have hfetch : t.fetchAddr = BitVec.ofNat 16 (addressOf s ea) :=
    BitVec.eq_of_toNat_eq (by rw [haddr, BitVec.toNat_ofNat, Nat.mod_eq_of_lt (addressOf_lt s ea)])
  have hword : t.fetchWord = operandValue s dst := by
    rw [State.fetchWord, hfetch, ← ht, readWord_storeWord_ofNat _ _ (addressOf_lt s ea) (addressOf_lt s ea), if_pos rfl]
  have hrun' : t.run = .running := by rw [← ht, State.storeWord_run, State.advancePc_run, hrun]
  rw [step_running t hrun', hword]

/-- Settles O54: a difference that fits keeps its sign, and BRP tests the sign. -/
theorem subThenBrpComparesSigned : Obligations.SubThenBrpComparesSigned := by
  intro dst src location s hpc hlo hhi
  refine ⟨_, _, rfl, rfl, ?_⟩
  generalize ht : s.alu2 (fun a b => a - b) dst src = t
  have hsub : exec (.sub dst src) s = .next t := by rw [← ht]; rfl
  have hval : (operandValue t dst).toInt = (s.readReg dst).toInt - (operandValue s src).toInt := by
    rw [operandValue_of_ne_pc t hpc, exec_sub_readReg_dst hsub, toInt_sub_eq_wrap32, operandValue_of_ne_pc s hpc,
      wrap32_of_fits hlo hhi]
  have hsign : 0 ≤ (operandValue t dst).toInt ↔ (operandValue s src).toInt ≤ (s.readReg dst).toInt := by
    rw [hval, sub_nonneg]
  simpa only [hsign] using pc_of_branch (exec_brp_pc (s := t) (dst := dst) (location := location) rfl)

end Sys2Proof.Machine
end

section
/-! # Launch (20_memory.md section 3, 70_reset_and_hazards.md section 1)

A launch is the reset state with the image placed from word address 0 upward. The words of an image file are put together
from four bytes each, the lowest first. -/

namespace Sys2Proof.Machine

/-- The words of a memory with an image placed from address `a` upward: the image's where it lies, the old ones elsewhere
(R50). -/
theorem Memory.readWord_place (image : List Word) (m : Memory) (a : Nat) (hfits : a + image.length ≤ 65536) (c : Addr) :
    (m.place a image).readWord c =
      if a ≤ c.toNat ∧ c.toNat < a + image.length then image.getD (c.toNat - a) 0 else m.readWord c := by
  induction image generalizing m a with
  | nil =>
    rw [Memory.place, if_neg (by rw [List.length_nil]; omega)]
  | cons w rest ih =>
    rw [List.length_cons] at hfits ⊢
    have haddr : c = BitVec.ofNat 16 a ↔ c.toNat = a := by
      rw [← BitVec.toNat_inj, BitVec.toNat_ofNat, Nat.mod_eq_of_lt (by omega)]
    rw [Memory.place, ih _ _ (by omega), Memory.readWord_writeWord]
    simp only [haddr]
    obtain hlt | heq | hgt := lt_trichotomy c.toNat a
    · rw [if_neg (by omega), if_neg (by omega), if_neg (by omega)]
    · rw [if_neg (by omega), if_pos heq, if_pos (by omega), heq, Nat.sub_self, List.getD_cons_zero]
    · have hsub : c.toNat - a = c.toNat - (a + 1) + 1 := by omega
      rw [if_neg (by omega : ¬ c.toNat = a), hsub, List.getD_cons_succ]
      split
      case isTrue hin => rw [if_pos (by omega)]
      case isFalse hout => rw [if_neg (by omega)]

/-- A memory with nothing but an image at address 0 holds the image and zero beyond it (R50). -/
theorem Memory.readWord_place_zero (image : List Word) (hfits : image.length ≤ 65536) (c : Addr) :
    (Memory.place [] 0 image).readWord c = image.getD c.toNat 0 := by
  rw [Memory.readWord_place image [] 0 (by omega), Memory.readWord_nil]
  split
  case isTrue hin => rfl
  case isFalse hout => rw [List.getD_eq_default _ _ (by omega)]

/-- A word put together from four bytes is the number of R42 and D8. -/
theorem wordOfBytes_eq_ofNat (b0 b1 b2 b3 : Byte) : b3 ++ b2 ++ b1 ++ b0 =
    BitVec.ofNat 32 (b0.toNat + 256 * b1.toNat + 65536 * b2.toNat + 16777216 * b3.toNat) := by
  apply BitVec.eq_of_toNat_eq
  rw [toNat_wordOfBytes, BitVec.toNat_ofNat]
  omega

/-- An image file with a partial word is refused: four bytes make one word, and one to three are left at the end (D8). -/
theorem imageWords_of_partial : ∀ bs : List Byte, bs.length % 4 ≠ 0 → imageWords bs = .error .partialWord
  | [], hlen => absurd rfl hlen
  | [_], _ | [_, _], _ | [_, _, _], _ => rfl
  | b0 :: b1 :: b2 :: b3 :: rest, hlen => by
    have hrest : rest.length % 4 ≠ 0 := by
      simp only [List.length_cons] at hlen
      omega
    rw [imageWords, imageWords_of_partial rest hrest]

/-! ### The obligations -/

/-- Settles O51: a launch is the reset state but for the memory, the console input and the parameter. -/
theorem launchMeetsPremises : Obligations.LaunchMeetsPremises := by
  refine ⟨fun s image hfits => ⟨_, if_pos hfits, ?_⟩, fun s image hlarge => if_neg (not_le.mpr hlarge)⟩
  exact ⟨⟨hfits, Memory.readWord_place_zero image hfits⟩, State.readReg_reset Reg.pc, rfl,
    fun r _ => State.readReg_reset r, ⟨rfl, rfl⟩, fun _ hinput => hinput, Memory.wf_place 0 image rfl⟩

/-- Settles O52: of the state a launch starts from it keeps the console input and the parameter only. -/
theorem launchDiscardsTheRun : Obligations.LaunchDiscardsTheRun := by
  intro s s' image hin hmask
  rw [State.launch, State.launch, hin, hmask]

/-- Settles O53: four bytes are one word, and a rest of one to three is refused. -/
theorem imageBytesAreLittleEndian : Obligations.ImageBytesAreLittleEndian := by
  refine ⟨rfl, fun b0 b1 b2 b3 rest ws hrest => ?_, imageWords_of_partial⟩
  rw [imageWords, hrest, wordOfBytes_eq_ofNat]

end Sys2Proof.Machine
end

section
/-! # The environment of a cycle (10_state.md sections 3 and 4, 42_io.md, 60_exceptions.md section 1)

No instruction reads the past exchanges, INP alone reads the console input, and the fetch phase alone reads the parameter
of the mask. So a cycle runs the same with other contents in these three fields, `State.within`. `exec_within` says so once
for every instruction but INP, `Exchange` for a step; the statements about outputs, input and the mask follow. -/

namespace Sys2Proof.Machine

/-! ### The same machine in another environment -/

/-- The machine of `s` with another console input, other past exchanges and another reading of the mask. -/
def State.within (s : State) (c : ConsoleInput) (past : List Event) (masked : Bool) : State :=
  { s with consoleIn := c, events := past, pcStoreMasked := masked }

/-- The fetch phase of `s` is the same under the reading `masked` of the mask (R26, C1). -/
def State.FetchesAlike (s : State) (masked : Bool) : Prop := masked = s.pcStoreMasked ∨ s.pc.toNat < 65536

/-- A value below 65536 is its own low 16 bits (R8). -/
theorem zext32_low16_of_lt {v : Word} (h : v.toNat < 65536) : zext32 (low16 v) = v := by
  apply BitVec.eq_of_toNat_eq
  rw [toNat_zext32, toNat_low16, Nat.mod_eq_of_lt h]

section
variable {s : State} {masked : Bool} (hfetch : s.FetchesAlike masked) (c : ConsoleInput) (past : List Event)
include hfetch

/-- The fetch phase looks at the parameter only where the readings differ. -/
theorem State.advancePc_within : (s.within c past masked).advancePc = s.advancePc.within c past masked := by
  have hpc : (if masked then zext32 (low16 s.pc) else s.pc) =
      if s.pcStoreMasked then zext32 (low16 s.pc) else s.pc := by
    obtain rfl | hlt := hfetch
    · rfl
    · rw [zext32_low16_of_lt hlt, ite_self, ite_self]
  calc (s.within c past masked).advancePc
      = (s.within c past masked).setPc ((if masked then zext32 (low16 s.pc) else s.pc) + 1) := rfl
    _ = s.advancePc.within c past masked := by rw [hpc]; rfl

/-- The shape that writes one result, for a value that does not depend on the environment. -/
theorem State.writeResult_within (dst : Reg) {value : State → Word}
    (hvalue : value (s.advancePc.within c past masked) = value s.advancePc) :
    (s.within c past masked).writeResult dst value = (s.writeResult dst value).within c past masked := by
  rw [State.writeResult, State.advancePc_within hfetch, hvalue]
  rfl

/-- The branch shape, for a condition that does not depend on the environment. -/
theorem State.branchIf_within (location : BitVec 16) {cond : State → Bool}
    (hcond : cond (s.advancePc.within c past masked) = cond s.advancePc) :
    (s.within c past masked).branchIf cond location = (s.branchIf cond location).within c past masked := by
  rw [State.branchIf, State.branchIf, State.advancePc_within hfetch, hcond]
  split <;> rfl

/-- INP takes whatever console input it finds. -/
theorem exec_inp_within {v : Word} {rest c' : ConsoleInput} (hin : s.consoleIn.next = some (v, rest))
    (hc : c.next = some (v, c')) {dst : Reg} {t : State} (h : exec (.inp dst) s = .next t) :
    exec (.inp dst) (s.within c past masked) = .next (t.within c' (past ++ [.read v]) masked) := by
  rw [exec_inp_of_next hin] at h
  cases h
  rw [exec_inp_of_next (s := s.within c past masked) hc, State.advancePc_within hfetch]
  rfl

end

/-- What an instruction other than INP hands to the environment (R113, R177). -/
def emitted (s : State) : Instr → List Event
  | .out dst => [.wrote (operandValue s dst)]
  | i => if i.opcode.toNat ∈ unassignedOpcodes then [.diag (encode i)] else []

/-- Every instruction but INP runs the same in another environment, and hands it the same events. -/
theorem exec_within {i : Instr} {s t : State} (h : exec i s = .next t) (hinp : ∀ dst, i ≠ .inp dst) {masked : Bool}
    (hfetch : s.FetchesAlike masked) (c : ConsoleInput) (past : List Event) :
    exec i (s.within c past masked) = .next (t.within c (past ++ emitted s i) masked) := by
  have hadv := State.advancePc_within hfetch c past
  have hquiet : emitted s i = [] → past ++ emitted s i = past := fun hnil => by rw [hnil, List.append_nil]
  cases i with
  | inp dst => exact absurd rfl (hinp dst)
  | hlt =>
    cases h
    rw [hquiet rfl, exec, execHlt, hadv]
    rfl
  | str dst ea =>
    cases h
    rw [hquiet rfl, exec, execStr, hadv]
    cases ea <;> rfl
  | out dst =>
    cases h
    rw [emitted, ← State.readReg_advancePc_operand, exec, execOut, hadv]
    rfl
  | ldr dst ea =>
    cases h
    rw [hquiet rfl]
    exact congrArg Host.Outcome.next (State.writeResult_within hfetch c past dst (by cases ea <;> rfl))
  | cpr dst | cpv dst | add dst | sub dst | lsl dst | lsr dst | and dst | orr dst | xor dst | not dst =>
    cases h
    rw [hquiet rfl]
    exact congrArg Host.Outcome.next (State.writeResult_within hfetch c past dst rfl)
  | bra location =>
    cases h
    rw [hquiet rfl]
    exact congrArg Host.Outcome.next (State.branchIf_within hfetch c past location rfl)
  | brz dst location | brp dst location =>
    cases h
    rw [hquiet rfl]
    exact congrArg Host.Outcome.next (State.branchIf_within hfetch c past location rfl)
  | unassigned01 | unassigned17 | unassigned20 | unassigned21 | unassigned22 | unassigned23 | unassigned24
  | unassigned25 | unassigned26 | unassigned27 | unassigned28 | unassigned29 | unassigned30 | unassigned31 =>
    cases h
    exact congrArg (fun u : State => Host.Outcome.next (u.diag _)) hadv

/-- What every instruction but INP leaves of the environment: the input and the parameter as they were, the events longer
by its own. -/
theorem exec_environment {i : Instr} {s t : State} (h : exec i s = .next t) (hinp : ∀ dst, i ≠ .inp dst) :
    t.consoleIn = s.consoleIn ∧ t.events = s.events ++ emitted s i ∧ t.pcStoreMasked = s.pcStoreMasked := by
  have hsame : exec i s = .next (t.within s.consoleIn (s.events ++ emitted s i) s.pcStoreMasked) :=
    exec_within h hinp (.inl rfl) s.consoleIn s.events
  have ht : t = t.within s.consoleIn (s.events ++ emitted s i) s.pcStoreMasked :=
    Host.Outcome.next.inj (h.symm.trans hsame)
  exact ⟨by rw [ht]; rfl, by rw [ht]; rfl, by rw [ht]; rfl⟩

/-! ### The events of a step (R114) -/

/-- An unassigned opcode's instruction carries the whole word, which is its encoding (R66, R85). -/
theorem encode_decode_of_unassigned {w : Word} (hop : (opcodeField w).toNat ∈ unassignedOpcodes) :
    encode (decode w) = w := by
  have hmask : usedMask w = 0xFFFFFFFF := by
    unfold usedMask
    generalize (opcodeField w).toNat = k at hop ⊢
    fin_cases hop
    all_goals rfl
  rw [encode_decode, hmask]
  exact BitVec.and_allOnes

/-- The event of a step at an INP that finds a value (R114). -/
theorem eventsOf_inp_some {s : State} {dst : Reg} {v : Word} (hdec : decode s.fetchWord = .inp dst)
    (hv : s.consoleIn.valueAt 0 = some v) : eventsOf s = [.read v] := by
  rw [eventsOf, hdec, hv]

/-- A held INP makes no event (log 10). -/
theorem eventsOf_inp_none {s : State} {dst : Reg} (hdec : decode s.fetchWord = .inp dst)
    (hv : s.consoleIn.valueAt 0 = none) : eventsOf s = [] := by
  rw [eventsOf, hdec, hv]

/-- The events of a step at any other instruction (R114). -/
theorem eventsOf_of_ne_inp {s : State} (hinp : ∀ dst, decode s.fetchWord ≠ .inp dst) :
    eventsOf s = emitted s (decode s.fetchWord) := by
  have henc : (decode s.fetchWord).opcode.toNat ∈ unassignedOpcodes → encode (decode s.fetchWord) = s.fetchWord := by
    rw [opcode_decode]
    exact encode_decode_of_unassigned
  rw [eventsOf, ← opcode_decode]
  generalize decode s.fetchWord = i at henc hinp ⊢
  split
  case h_1 | h_2 => exact absurd rfl (hinp _)
  case h_3 => rfl
  case h_4 =>
    rw [emitted]
    · split
      case isTrue hun => rw [henc hun]
      case isFalse => rfl
    · assumption

/-! ### Values taken from a console input -/

/-- `c.Yields vs c'`: taking one value after the other from `c` gives `vs` and leaves `c'`. -/
def ConsoleInput.Yields (c : ConsoleInput) : List Word → ConsoleInput → Prop
  | [], c' => c' = c
  | v :: vs, c' => ∃ rest, c.next = some (v, rest) ∧ rest.Yields vs c'

/-- Values taken in two goes are taken in order. -/
theorem ConsoleInput.Yields.append {c c' c'' : ConsoleInput} {vs ws : List Word} (h : c.Yields vs c')
    (h' : c'.Yields ws c'') : c.Yields (vs ++ ws) c'' := by
  induction vs generalizing c with
  | nil => cases h; exact h'
  | cons v vs ih =>
    obtain ⟨rest, hnext, hrest⟩ := h
    exact ⟨rest, hnext, ih hrest⟩

/-- The values taken stand first in the console input, and what is left follows them. -/
theorem ConsoleInput.Yields.valueAt_eq {c c' : ConsoleInput} {vs : List Word} (h : c.Yields vs c') (i : Nat) :
    c.valueAt i = if i < vs.length then vs[i]? else c'.valueAt (i - vs.length) := by
  induction vs generalizing c i with
  | nil => cases h; rfl
  | cons v vs ih =>
    obtain ⟨rest, hnext, hrest⟩ := h
    obtain ⟨hfirst, hlater⟩ := ConsoleInput.next_cases _ _ _ hnext
    cases i with
    | zero => exact hfirst
    | succ i =>
      rw [← hlater, ih hrest, List.length_cons, List.getElem?_cons_succ, Nat.add_sub_add_right]
      simp only [Nat.add_lt_add_iff_right]

/-- A finite console input gives its first values. -/
theorem ConsoleInput.yields_ofList_append (vs ws : List Word) :
    (ConsoleInput.ofList (vs ++ ws)).Yields vs (ConsoleInput.ofList ws) := by
  induction vs with
  | nil => rfl
  | cons v vs ih => exact ⟨_, rfl, ih⟩

/-! ### What a step does with its environment -/

/-- The values read among some events, in order. -/
def reads (events : List Event) : List Word := events.filterMap readValue

/-- Reads of a list of events followed by another one. -/
theorem reads_append (new new' : List Event) : reads (new ++ new') = reads new ++ reads new' :=
  List.filterMap_append

/-- No instruction but INP reads a value (R114). -/
theorem reads_emitted (s : State) {i : Instr} (hinp : ∀ dst, i ≠ .inp dst) : reads (emitted s i) = [] := by
  unfold emitted
  split
  · rfl
  · split <;> rfl

/-- `Exchange s t new`: the step from `s` to `t` adds the events `new`, takes the values read in them from the console
input, and would do so in every environment that has those values to give. -/
structure Exchange (s t : State) (new : List Event) : Prop where
  /-- At most one value is read. -/
  once : (reads new).length ≤ 1
  /-- The values read are taken from the console input. -/
  input : s.consoleIn.Yields (reads new) t.consoleIn
  /-- The past events are kept. -/
  events : t.events = s.events ++ new
  /-- The parameter is kept. -/
  mask : t.pcStoreMasked = s.pcStoreMasked
  /-- The step in another environment; an INP that is held must find no value there either. -/
  within : ∀ c c' past masked, (s.consoleIn = .empty → c = .empty) → c.Yields (reads new) c' → s.FetchesAlike masked →
    step (s.within c past masked) = .next (t.within c' (past ++ new) masked)

/-- A step that keeps the state adds no event. -/
theorem exchange_self {s : State}
    (h : ∀ c past masked, (s.consoleIn = .empty → c = .empty) →
      step (s.within c past masked) = .next (s.within c past masked)) : Exchange s s [] where
  once := Nat.zero_le 1
  input := rfl
  events := (List.append_nil _).symm
  mask := rfl
  within c c' past masked hempty hyields _ := by
    cases hyields
    rw [List.append_nil, h c past masked hempty]

/-- A step of a Running engine is the execution of the decoded word, in another environment too. -/
theorem step_within_running {s : State} (hrun : s.run = .running) (c : ConsoleInput) (past : List Event) (masked : Bool) :
    step (s.within c past masked) = exec (decode s.fetchWord) (s.within c past masked) :=
  step_running (s.within c past masked) hrun

/-- A held INP, while the environment has nothing to give (R112; log 10). -/
theorem exchange_held {s : State} {dst : Reg} (hrun : s.run = .running) (hdec : decode s.fetchWord = .inp dst)
    (hempty : s.consoleIn = .empty) : Exchange s s [] :=
  exchange_self fun c past masked hc => by
    rw [step_within_running hrun, hdec, exec_inp_of_empty (s := s.within c past masked) (hc hempty)]

/-- INP with a value there takes it (R112). -/
theorem exchange_input {s t : State} {dst : Reg} {v : Word} {rest : ConsoleInput} (hrun : s.run = .running)
    (hdec : decode s.fetchWord = .inp dst) (hin : s.consoleIn.next = some (v, rest))
    (hexec : exec (.inp dst) s = .next t) : Exchange s t [.read v] := by
  obtain rfl := Host.Outcome.next.inj ((exec_inp_of_next hin dst).symm.trans hexec)
  refine ⟨le_rfl, ⟨rest, hin, rfl⟩, rfl, rfl, fun c c' past masked _ hyields hfetch => ?_⟩
  obtain ⟨rest', hnext, hleft⟩ := hyields
  cases hleft
  rw [step_within_running hrun, hdec, exec_inp_within hfetch c past hin hnext hexec]

/-- Every other instruction does not look at its environment. -/
theorem exchange_emitted {s t : State} (hrun : s.run = .running) (hinp : ∀ dst, decode s.fetchWord ≠ .inp dst)
    (hexec : exec (decode s.fetchWord) s = .next t) : Exchange s t (emitted s (decode s.fetchWord)) := by
  obtain ⟨hin, hevents, hmask⟩ := exec_environment hexec hinp
  have hreads := reads_emitted s hinp
  refine ⟨?_, ?_, hevents, hmask, fun c c' past masked _ hyields hfetch => ?_⟩
  · rw [hreads]
    exact Nat.zero_le 1
  · rw [hreads]
    exact hin
  · rw [hreads] at hyields
    cases hyields
    rw [step_within_running hrun, exec_within hexec hinp hfetch]

/-- A step of a Running engine is an exchange of the one event R114 gives its instruction, or of none. -/
theorem running_exchange {s t : State} (hrun : s.run = .running) (h : step s = .next t) : Exchange s t (eventsOf s) := by
  rw [step_running s hrun] at h
  by_cases hinp : ∃ dst, decode s.fetchWord = .inp dst
  · obtain ⟨dst, hdec⟩ := hinp
    rw [hdec] at h
    cases hv : s.consoleIn.valueAt 0 with
    | none =>
      have hempty := (ConsoleInput.valueAt_zero_eq_none _).mp hv
      obtain rfl := Host.Outcome.next.inj ((exec_inp_of_empty hempty dst).symm.trans h)
      rw [eventsOf_inp_none hdec hv]
      exact exchange_held hrun hdec hempty
    | some v =>
      obtain ⟨rest, hin⟩ := s.consoleIn.next_of_valueAt v hv
      rw [eventsOf_inp_some hdec hv]
      exact exchange_input hrun hdec hin h
  · have hnot : ∀ dst, decode s.fetchWord ≠ .inp dst := fun dst hdec => hinp ⟨dst, hdec⟩
    rw [eventsOf_of_ne_inp hnot]
    exact exchange_emitted hrun hnot h

/-- Every step is an exchange; a Halted engine's is empty (R28). -/
theorem step_exchange {s t : State} (h : step s = .next t) : ∃ new, Exchange s t new := by
  cases hrun : s.run with
  | running => exact ⟨eventsOf s, running_exchange hrun h⟩
  | halted =>
    obtain rfl := step_halted hrun h
    refine ⟨[], exchange_self fun c past masked _ => ?_⟩
    rw [step, show (t.within c past masked).run = .halted from hrun]

section
variable {s t : State} {new : List Event} (h : Exchange s t new)
include h

/-- The step after other past events (R32). -/
theorem Exchange.step_past (past : List Event) :
    step { s with events := past } = .next { t with events := past ++ new } := by
  calc step { s with events := past }
      = .next (t.within t.consoleIn (past ++ new) s.pcStoreMasked) :=
        h.within s.consoleIn t.consoleIn past s.pcStoreMasked id h.input (.inl rfl)
    _ = .next { t with events := past ++ new } := by rw [← h.mask]; rfl

/-- The step on another console input that has the values read to give (R32). -/
theorem Exchange.step_input {c c' : ConsoleInput} (hne : s.consoleIn ≠ .empty) (hc : c.Yields (reads new) c') :
    step { s with consoleIn := c } = .next { t with consoleIn := c' } := by
  calc step { s with consoleIn := c }
      = .next (t.within c' (s.events ++ new) s.pcStoreMasked) :=
        h.within c c' s.events s.pcStoreMasked (fun hempty => absurd hempty hne) hc (.inl rfl)
    _ = .next { t with consoleIn := c' } := by rw [← h.mask, ← h.events]; rfl

/-- The step under another reading of the mask, where the readings fetch alike (R26, C1). -/
theorem Exchange.step_mask {masked : Bool} (hfetch : s.FetchesAlike masked) :
    step { s with pcStoreMasked := masked } = .next { t with pcStoreMasked := masked } := by
  calc step { s with pcStoreMasked := masked }
      = .next (t.within t.consoleIn (s.events ++ new) masked) :=
        h.within s.consoleIn t.consoleIn s.events masked id h.input hfetch
    _ = .next { t with pcStoreMasked := masked } := by rw [← h.events]; rfl

end

/-! ### Runs -/

/-- A run adds events, reads at most one value a step, takes the values read from the console input, and is the same run
after any other past events. -/
theorem reaches_exchange {k : Nat} {s t : State} (h : Reaches k s t) : ∃ new, (reads new).length ≤ k ∧
    s.consoleIn.Yields (reads new) t.consoleIn ∧ t.events = s.events ++ new ∧
    ∀ past, Reaches k { s with events := past } { t with events := past ++ new } := by
  induction h with
  | done s =>
    refine ⟨[], le_rfl, rfl, (List.append_nil _).symm, fun past => ?_⟩
    rw [List.append_nil]
    exact .done _
  | more here first rest ih =>
    obtain ⟨new, hexchange⟩ := step_exchange first
    obtain ⟨new', hcount, hyields, hevents, hpast⟩ := ih
    have honce := hexchange.once
    refine ⟨new ++ new', ?_, ?_, ?_, fun past => ?_⟩
    · rw [reads_append, List.length_append]
      omega
    · rw [reads_append]
      exact hexchange.input.append hyields
    · rw [hevents, hexchange.events, List.append_assoc]
    · rw [← List.append_assoc]
      exact .more trivial (hexchange.step_past past) (hpast (past ++ new))

/-! ### The premise on the console input (R205) -/

/-- Value number `i` among the first `n` values of a sequence. -/
theorem InputSeq.getElem?_first (xs : InputSeq) (n i : Nat) : (xs.first n)[i]? = if i < n then xs.valueAt i else none := by
  cases xs with
  | finite xs => exact List.getElem?_take
  | infinite xs =>
    rw [InputSeq.first, List.getElem?_map]
    split
    case isTrue hlt => rw [List.getElem?_range hlt]; rfl
    case isFalse hge => rw [List.getElem?_eq_none (by rw [List.length_range]; omega)]; rfl

/-- The values of a sequence without its first `n`. -/
theorem InputSeq.valueAt_drop (xs : InputSeq) (n i : Nat) : (xs.drop n).valueAt i = xs.valueAt (n + i) := by
  cases xs with
  | finite xs => exact List.getElem?_drop
  | infinite xs => rfl

/-- Values taken from a console input that is `xs` are the first of `xs`, and the rest of `xs` is left. -/
theorem ConsoleInput.Yields.of_input {s t : State} {xs : InputSeq} {vs : List Word}
    (h : s.consoleIn.Yields vs t.consoleIn) (hinput : Input xs s) :
    vs = xs.first vs.length ∧ Input (xs.drop vs.length) t := by
  have hvalue (i : Nat) := (hinput i).symm.trans (h.valueAt_eq i)
  refine ⟨List.ext_getElem? fun i => ?_, fun i => ?_⟩
  · rw [InputSeq.getElem?_first]
    split
    case isTrue hlt => rw [hvalue, if_pos hlt]
    case isFalse hge => exact List.getElem?_eq_none (not_lt.mp hge)
  · have hge : ¬ vs.length + i < vs.length := by omega
    rw [InputSeq.valueAt_drop, hvalue, if_neg hge, Nat.add_sub_cancel_left]

/-- An infinite premise is met by no empty console input. -/
theorem consoleIn_ne_empty_of_input {s : State} {xs : Nat → Word} (hinput : Input (.infinite xs) s) :
    s.consoleIn ≠ .empty := by
  intro hempty
  have hfirst := hinput 0
  rw [hempty] at hfirst
  cases hfirst

/-- On an infinite console input k steps are what they are on any of its finite beginnings of at least k values. -/
theorem reaches_on_beginning {k : Nat} {s t : State} (h : Reaches k s t) {xs : Nat → Word} {n : Nat}
    (hinput : Input (.infinite xs) s) (hn : k ≤ n) : ∃ rest,
      Reaches k { s with consoleIn := .ofList ((List.range n).map xs) } { t with consoleIn := .ofList rest } := by
  induction h generalizing xs n with
  | done s => exact ⟨_, .done _⟩
  | more here first rest ih =>
    obtain ⟨new, hexchange⟩ := step_exchange first
    obtain ⟨hreads, hinput'⟩ := hexchange.input.of_input hinput
    have honce := hexchange.once
    obtain ⟨m, rfl⟩ : ∃ m, n = (reads new).length + m := ⟨n - (reads new).length, by omega⟩
    have hsplit : (List.range ((reads new).length + m)).map xs =
        reads new ++ (List.range m).map fun i => xs ((reads new).length + i) := by
      rw [List.range_add, List.map_append, List.map_map]
      congr 1
      exact hreads.symm
    obtain ⟨left, hrest⟩ := ih hinput' (n := m) (by omega)
    rw [hsplit]
    exact ⟨left, .more trivial
      (hexchange.step_input (consoleIn_ne_empty_of_input hinput) (ConsoleInput.yields_ofList_append _ _)) hrest⟩

/-! ### Diagnostics -/

/-- Of the shapes of a cycle only the unrecognized instruction's adds to the diagnostic channel (R177). -/
theorem Effect.diagnostics_eq {s t : State} {i : Instr} (h : Effect s i t) (hop : i.opcode.toNat ∉ unassignedOpcodes) :
    t.diagnostics = s.diagnostics := by
  cases h with
  | halt | write | store | hold => rfl
  | input dst v rest => exact State.diagnostics_emit_read _ v
  | output dst => exact State.diagnostics_emit_wrote _ _
  | always | ifZero | ifNonNegative => rw [State.diagnostics, State.branchIf_events, State.diagnostics]
  | unrecognized hun => exact absurd hun hop

/-- A step that fetches an assigned opcode reports nothing (R177). -/
theorem step_noDiagnostic {s t : State} (h : step s = .next t) (hrec : Recognized s) : NoDiagnostic s t := by
  obtain ⟨-, rfl⟩ | ⟨-, hexec⟩ := step_cases s t h
  · rfl
  · exact (exec_effect hexec).diagnostics_eq (by rwa [opcode_decode])

/-! ### The obligations -/

/-- Settles O42: below 65536 the readings fetch alike, so each step is a step under the other reading. -/
theorem pcMaskReadingsAgree : Obligations.PcMaskReadingsAgree := by
  rintro k s t - h
  induction h with
  | done s => exact .done _
  | more here first rest ih =>
    obtain ⟨new, hexchange⟩ := step_exchange first
    exact .more here (hexchange.step_mask (.inr here)) ih

/-- Settles O43: every step is an exchange, and an exchange keeps the parameter. -/
theorem pcParameterNeverChanges : Obligations.PcParameterNeverChanges := fun _ _ h => by
  obtain ⟨new, hexchange⟩ := step_exchange h
  exact hexchange.mask

/-- Settles O44: a run is the same run after any other past events. -/
theorem outputsAreUnobservable : Obligations.OutputsAreUnobservable := by
  intro k s t past h
  obtain ⟨new, -, -, hevents, hpast⟩ := reaches_exchange h
  exact ⟨new, hevents, hpast past⟩

/-- Settles O45: an instruction other than INP runs the same on another console input. -/
theorem inputObservedOnlyByInp : Obligations.InputObservedOnlyByInp := by
  intro s t xs hinp h
  obtain ⟨hrun, rfl⟩ | ⟨hrun, hexec⟩ := step_cases s t h
  · exact ⟨rfl, by rw [step, hrun]⟩
  · obtain ⟨hin, hevents, hmask⟩ := exec_environment hexec hinp
    refine ⟨hin, ?_⟩
    calc step { s with consoleIn := xs }
        = .next (t.within xs (s.events ++ emitted s (decode s.fetchWord)) s.pcStoreMasked) := by
          rw [← exec_within hexec hinp (.inl rfl)]
          exact step_within_running hrun xs s.events s.pcStoreMasked
      _ = .next { t with consoleIn := xs } := by rw [← hevents, ← hmask]; rfl

/-- Settles O46: the values read along a run stand first in the console input. -/
theorem inputConsumedInOrder : Obligations.InputConsumedInOrder := by
  intro k s t h
  obtain ⟨new, -, hyields, hevents, -⟩ := reaches_exchange h
  exact ⟨new, hevents, hyields.valueAt_eq⟩

/-- Settles O47, with the number of values read for n. -/
theorem inputPremiseFollowsTheRun : Obligations.InputPremiseFollowsTheRun := by
  intro k s t xs h hinput
  obtain ⟨new, hcount, hyields, hevents, -⟩ := reaches_exchange h
  obtain ⟨hreads, hleft⟩ := hyields.of_input hinput
  exact ⟨(reads new).length, new, hcount, hevents, hreads, congrArg List.length hreads.symm, hleft⟩

/-- Settles O48: k steps read at most k values, and INP finds a value on an infinite input. -/
theorem infiniteInputActsAsItsPrefixes : Obligations.InfiniteInputActsAsItsPrefixes := by
  intro s xs hinput
  refine ⟨fun k t h => reaches_on_beginning h hinput le_rfl, fun dst hrun hdec => ?_⟩
  obtain ⟨t, hexec, hdst, hrest, -, hregs, hmem, hrun', -⟩ := exec_inp_of_valueAt (hinput 0) dst
  refine ⟨t, by rw [step_running s hrun, hdec, hexec], hdst, fun i => ?_, hregs, hmem, hrun'.trans hrun⟩
  rw [hrest, hinput]
  rfl

/-- Settles O49: what a Running engine's step exchanges is `eventsOf`. -/
theorem oneEventPerInstruction : Obligations.OneEventPerInstruction := fun _ _ hrun h =>
  (running_exchange hrun h).events

/-- Settles O50, by induction on the run: no step of it reports a word. -/
theorem recognizedRunsEmitNoDiagnostic : Obligations.RecognizedRunsEmitNoDiagnostic := by
  intro k s t h
  induction h with
  | done s => rfl
  | more here first rest ih => exact ih.trans (step_noDiagnostic first here)

end Sys2Proof.Machine
end
